-- ==== Sys2Proof/Word.lean ====
section
/-! DEFINITION. The word and byte types of the core (00_scope.md rules R5 `WORD`, R7; 20_memory.md rule R25). -/

namespace Sys2Proof

/-- A 32-bit unsigned word: a state word, an accumulator, a message word, a constant (R7). -/
abbrev Word := BitVec 32

/-- One byte of the scratch buffer or of a payload (R25). -/
abbrev Byte := BitVec 8

end Sys2Proof
end

