-- ==== Sys2Proof/Config.lean ====
section
/-! DEFINITION. The algorithms, the two kinds of order, and the parameters the spec leaves open with a default
(00_scope.md rule R5, rows marked "parameter"; 92_eei_decisions.md D3, D13, D15). -/

namespace Sys2Proof

/-- The four algorithms, all mandatory (R1). -/
inductive Alg where
  | md5
  | sha1
  | sha256
  | rmd160
deriving DecidableEq, Repr

/-- The byte order inside a 32-bit word (20_memory.md section 3). -/
inductive WordOrder where
  /-- least significant byte first -/
  | le
  /-- most significant byte first -/
  | be
deriving DecidableEq, Repr

/-- Which 32-bit half of the 64-bit bit length is written first (41_final.md rule R84). -/
inductive LenOrder where
  | lowFirst
  | highFirst
deriving DecidableEq, Repr

/-- The open parameters of R5. -/
structure Config where
  /-- `HDR`: bytes of the header region -/
  hdr : Nat
  /-- `MAXBYTES`: the largest total input of one computation -/
  maxBytes : Nat
  /-- `LENORDER[MD5]` -/
  lenMd5 : LenOrder
  /-- `LENORDER[SHA-1]` -/
  lenSha1 : LenOrder
  /-- `LENORDER[SHA-256]` -/
  lenSha256 : LenOrder
  /-- `LENORDER[RIPEMD-160]` -/
  lenRmd160 : LenOrder
deriving DecidableEq, Repr

/-- The defaults of R5 (DESIGN CHOICE, log 7: `exec` and `step` run with these). -/
def Config.standard : Config where
  hdr := 4
  maxBytes := 2 ^ 53
  lenMd5 := .lowFirst
  lenSha1 := .highFirst
  lenSha256 := .highFirst
  lenRmd160 := .lowFirst

/-- `BUFSZ = HDR + 64` (R5, R13). -/
def Config.bufsz (c : Config) : Nat := c.hdr + 64

/-- `LENORDER[alg]` (R5, R84). -/
def Config.lenOrder (c : Config) : Alg → LenOrder
  | .md5 => c.lenMd5
  | .sha1 => c.lenSha1
  | .sha256 => c.lenSha256
  | .rmd160 => c.lenRmd160

/-- The configuration keeps the default order of the length words (R84); its `HDR` and `MAXBYTES` may be any. -/
def Config.standardOrder (c : Config) : Prop := ∀ alg, c.lenOrder alg = Config.standard.lenOrder alg

end Sys2Proof
end

