-- ==== Sys2Proof/Syntax.lean ====
section
/-! DEFINITION. The instruction set: one constructor per row of spec/opcode_table.json (30_encoding.md rule R45), and the
two forms in which an instruction reaches the core (R40, R43, R54). -/

namespace Sys2Proof

/-- The twelve host commands and the four internal compression requests. An `UPDATE` carries its payload
`data[0..len-1]` as its operand (R44, R54); its `len` is the payload's length. -/
inductive Instr where
  | md5Init
  | sha1Init
  | sha256Init
  | rmd160Init
  | md5Update (data : List Byte)
  | sha1Update (data : List Byte)
  | sha256Update (data : List Byte)
  | rmd160Update (data : List Byte)
  | md5Final
  | sha1Final
  | sha256Final
  | rmd160Final
  | md5Compress
  | sha1Compress
  | sha256Compress
  | rmd160Compress
deriving DecidableEq, Repr

/-- `<ALG>.INIT`. -/
def Instr.init : Alg → Instr
  | .md5 => .md5Init
  | .sha1 => .sha1Init
  | .sha256 => .sha256Init
  | .rmd160 => .rmd160Init

/-- `<ALG>.UPDATE data`. -/
def Instr.update : Alg → List Byte → Instr
  | .md5, d => .md5Update d
  | .sha1, d => .sha1Update d
  | .sha256, d => .sha256Update d
  | .rmd160, d => .rmd160Update d

/-- `<ALG>.FINAL`. -/
def Instr.final : Alg → Instr
  | .md5 => .md5Final
  | .sha1 => .sha1Final
  | .sha256 => .sha256Final
  | .rmd160 => .rmd160Final

/-- `<ALG>.COMPRESS`. -/
def Instr.compress : Alg → Instr
  | .md5 => .md5Compress
  | .sha1 => .sha1Compress
  | .sha256 => .sha256Compress
  | .rmd160 => .rmd160Compress

/-- What carries an instruction: a command word with its payload bytes on the host ports (R40, R54), or a 2-bit code
on the internal request line (R43). -/
inductive Encoded where
  | command (word : Word) (payload : List Byte)
  | request (code : BitVec 2)
deriving DecidableEq, Repr

end Sys2Proof
end

