-- ==== Sys2Proof/Machine/State.lean ====
section
/-! DEFINITION. Every piece of state the spec gives the core, as plain data (10_state.md), the state after reset (R21), and
the reasons a step can stop (00_scope.md rule R9; 60_exceptions.md rule R193). -/

namespace Sys2Proof.Machine

/-- The scratch buffer `S`: address and byte pairs, addresses strictly rising, no entry for a byte that is 0x00, which
is what an unlisted address reads as: the reset contents of R21. -/
abbrev Memory := List Host.Cell

/-- The one canonical form. -/
abbrev Memory.wf (m : Memory) : Prop :=
  m.Pairwise (fun p q => p.1 < q.1) ∧ ∀ p ∈ m, p.2 ≠ 0#8

/-- Every listed address is below `n`. -/
abbrev Memory.within (m : Memory) (n : Nat) : Prop := ∀ p ∈ m, p.1 < n

/-- `words[0..7]` (R11). -/
structure Words where
  w0 : Word
  w1 : Word
  w2 : Word
  w3 : Word
  w4 : Word
  w5 : Word
  w6 : Word
  w7 : Word
deriving DecidableEq, Repr

/-- All eight words zero. -/
def Words.zero : Words := ⟨0, 0, 0, 0, 0, 0, 0, 0⟩

/-- Sixteen message words: `X[0..15]` or the rolling window `W[0..15]` (R14). -/
abbrev Sixteen := Vector Word 16

/-- Sixteen zero words. -/
def Sixteen.zero : Sixteen := #v[0, 0, 0, 0, 0, 0, 0, 0, 0, 0, 0, 0, 0, 0, 0, 0]

/-- Working registers of the MD5 core (R14, R100). -/
structure Md5Work where
  a : Word
  b : Word
  c : Word
  d : Word
  t : Word
  n : Word
  x : Sixteen
deriving DecidableEq, Repr

/-- The scrubbed MD5 registers (R107). -/
def Md5Work.zero : Md5Work := ⟨0, 0, 0, 0, 0, 0, Sixteen.zero⟩

/-- Working registers of the SHA-1 core (R14, R120). -/
structure Sha1Work where
  a : Word
  b : Word
  c : Word
  d : Word
  e : Word
  t : Word
  w : Sixteen
deriving DecidableEq, Repr

/-- The scrubbed SHA-1 registers (R126). -/
def Sha1Work.zero : Sha1Work := ⟨0, 0, 0, 0, 0, 0, Sixteen.zero⟩

/-- Working registers of the SHA-256 core (R14, R140). -/
structure Sha256Work where
  a : Word
  b : Word
  c : Word
  d : Word
  e : Word
  f : Word
  g : Word
  h : Word
  t1 : Word
  t2 : Word
  w : Sixteen
deriving DecidableEq, Repr

/-- The scrubbed SHA-256 registers (R146). -/
def Sha256Work.zero : Sha256Work := ⟨0, 0, 0, 0, 0, 0, 0, 0, 0, 0, Sixteen.zero⟩

/-- Five words: the registers of one RIPEMD-160 lane in role order `(a, b, c, d, e)`, or a copy `L`, `R`, `old` (R160). -/
structure Five where
  a : Word
  b : Word
  c : Word
  d : Word
  e : Word
deriving DecidableEq, Repr

/-- Five zero words. -/
def Five.zero : Five := ⟨0, 0, 0, 0, 0⟩

/-- Working registers of the RIPEMD-160 core (R14, R160): both lanes, the temporaries `tl`, `tr`, the message words and
the copies the combine reads. -/
structure Rmd160Work where
  left : Five
  right : Five
  tl : Word
  tr : Word
  x : Sixteen
  copyL : Five
  copyR : Five
  old : Five
deriving DecidableEq, Repr

/-- The scrubbed RIPEMD-160 registers (R168). -/
def Rmd160Work.zero : Rmd160Work :=
  ⟨Five.zero, Five.zero, 0, 0, Sixteen.zero, Five.zero, Five.zero, Five.zero⟩

/-- The working registers of the four cores (R14; log 4). -/
structure Work where
  md5 : Md5Work
  sha1 : Sha1Work
  sha256 : Sha256Work
  rmd160 : Rmd160Work
deriving DecidableEq, Repr

/-- All working registers zero, as they are at every command boundary (R22 (a)). -/
def Work.zero : Work := ⟨Md5Work.zero, Sha1Work.zero, Sha256Work.zero, Rmd160Work.zero⟩

/-- The ghost state `phase` (R16). -/
inductive Phase where
  | idle
  | active (a : Alg)
deriving DecidableEq, Repr

/-- One thing the host presents between commands (30_encoding.md rules R53, R54, R48): a command word with its payload,
a read of the scratch read port, or the reset signal. -/
inductive HostInput where
  | command (word : Word) (payload : List Byte)
  | read (addr : BitVec 7)
  | reset
deriving DecidableEq, Repr

/-- The whole state. `pending` and `received` are the host's side of the ports (log 1, log 2); `creq` is the internal
request line (log 3). -/
structure State where
  /-- `words[0..7]` (R11) -/
  words : Words
  /-- the low half of `byteCount` (R12) -/
  countLo : Word
  /-- the high half of `byteCount` (R12) -/
  countHi : Word
  /-- the scratch buffer `S` (R13) -/
  mem : Memory
  /-- ghost state (R16) -/
  phase : Phase
  /-- working registers of the cores (R14) -/
  work : Work
  /-- a compression request not yet served (R43) -/
  creq : Option (BitVec 2)
  /-- what the host presents, oldest first (R214) -/
  pending : List HostInput
  /-- the bytes the host has read from `rd_data`, oldest first (R36) -/
  received : List Byte
deriving DecidableEq, Repr

/-- The state after reset (R21, R210), with nothing presented by the host and nothing read yet. -/
def State.reset : State where
  words := Words.zero
  countLo := 0
  countHi := 0
  mem := []
  phase := .idle
  work := Work.zero
  creq := none
  pending := []
  received := []

/-- The hardware has no fault (R9, R190). The one constructor is the model's rejection of ill-formed host input. -/
inductive Fault where
  /-- Raised by the fetch of a host command whose payload length is not its `len` field: ill-formed input (R217), where
  hardware would wait for ever for missing bytes or not accept extra ones. Safe: the model stops. -/
  | payloadLength
deriving DecidableEq, Repr

/-- Why the model gives no next state (R9). The four reasons of R193 are the spec's; each stops the run for good (R200). -/
inductive Refusal where
  /-- Raised by `exec` for an instruction that has no meaning yet; no arm uses it. Safe: the model stops. -/
  | notModelled (mnemonic : String)
  /-- Raised by the fetch of a command word that matches no row of the opcode map (R46, R197). Safe: the model stops. -/
  | reservedEncoding
  /-- Raised by `UPDATE` and `FINAL` while `phase = IDLE` (R194). Safe: the model stops. -/
  | noComputation
  /-- Raised by `UPDATE` and `FINAL` of another algorithm than the one in progress (R195). Safe: the model stops. -/
  | algorithmMismatch
  /-- Raised by an `UPDATE` that would make `byteCount` exceed `MAXBYTES` (R196). Safe: the model stops. -/
  | byteCeiling
  /-- Raised by a host read of an address at or above `BUFSZ` (R36, U8). Safe: the model stops. -/
  | readOutsideBuffer
deriving DecidableEq, Repr

end Sys2Proof.Machine
end

