-- ==== Sys2Proof/Machine/Flags.lean ====
section
/-! DEFINITION. This hardware has no flag (10_state.md rule R18). The one carry that is kept, from the low half of the
byte counter to the high half (40_init_update.md rule R62), and the fold of three bits between the halves when bytes become
bits (41_final.md rule R83), stand here. -/

namespace Sys2Proof.Machine

/-- `byteCount = countHi * 2^32 + countLo` (R12). -/
def byteCountOf (hi lo : Word) : Nat := hi.toNat * 2 ^ 32 + lo.toNat

/-- The low half's wrap test `t < zext_32(len)` of `AddCount` (R62). -/
def countCarry (lo len : Word) : Bool := (lo + len).toNat < len.toNat

/-- `AddCount` on the pair `(countHi, countLo)` (R62). -/
def addCount (hi lo len : Word) : Word × Word :=
  (if countCarry lo len then hi + 1#32 else hi, lo + len)

/-- Bytes to bits on the pair `(countHi, countLo)`, both from the old values (R83). -/
def bitCount (hi lo : Word) : Word × Word := ((hi <<< 3) ||| (lo >>> 29), lo <<< 3)

end Sys2Proof.Machine
end

