-- ==== Sys2Proof/Machine/Operands.lean ====
section
/-! DEFINITION. Operand forms: the word primitives (00_scope.md rules R8, R38), the byte-order word view over four bytes
(20_memory.md rules R27, R28), the tables that the `alg` operand selects from (R5, R29), the hex table (R15), and the
immediate `len` (R44). -/

namespace Sys2Proof.Machine

/-- `rotl(x, n)`, for 0 < n < 32 (R8). -/
def rotl (x : Word) (n : Nat) : Word := (x <<< n) ||| (x >>> (32 - n))

/-- `rotr(x, n) = rotl(x, 32 - n)`, for 0 < n < 32 (R8). -/
def rotr (x : Word) (n : Nat) : Word := rotl x (32 - n)

/-- `shr(x, n)`: zeros shifted in at the top (R8). -/
def shr (x : Word) (n : Nat) : Word := x >>> n

/-- `shl(x, n)` (R8). -/
def shl (x : Word) (n : Nat) : Word := x <<< n

/-- Choose (R38). -/
def chooseF (x y z : Word) : Word := (x &&& y) ||| (~~~x &&& z)

/-- Parity (R38). -/
def parityF (x y z : Word) : Word := x ^^^ y ^^^ z

/-- Majority (R38). -/
def majorityF (x y z : Word) : Word := (x &&& y) ||| (x &&& z) ||| (y &&& z)

/-- `WordOf(order, b0 b1 b2 b3)` (R27). -/
def wordOf (order : WordOrder) (b0 b1 b2 b3 : Byte) : Word :=
  match order with
  | .le => b3 ++ b2 ++ b1 ++ b0
  | .be => b0 ++ b1 ++ b2 ++ b3

/-- `BytesOf(order, v)`, the byte for the lowest address first (R28). -/
def bytesOf (order : WordOrder) (v : Word) : List Byte :=
  match order with
  | .le => [v.extractLsb' 0 8, v.extractLsb' 8 8, v.extractLsb' 16 8, v.extractLsb' 24 8]
  | .be => [v.extractLsb' 24 8, v.extractLsb' 16 8, v.extractLsb' 8 8, v.extractLsb' 0 8]

/-- `WORDORDER[alg]` (R29). -/
def wordOrder : Alg → WordOrder
  | .md5 => .le
  | .sha1 => .be
  | .sha256 => .be
  | .rmd160 => .le

/-- `NW[alg]`: how many state words the algorithm uses (R5). -/
def wordCount : Alg → Nat
  | .md5 => 4
  | .sha1 => 5
  | .sha256 => 8
  | .rmd160 => 5

/-- `DIGSZ[alg] = 4 * NW[alg]` (R5). -/
def digestSize (alg : Alg) : Nat := 4 * wordCount alg

/-- `words[0..7]` as a list. -/
def wordList (w : Words) : List Word := [w.w0, w.w1, w.w2, w.w3, w.w4, w.w5, w.w6, w.w7]

/-- `HEX[0..15]`: the ASCII characters `0123456789abcdef` (R15). -/
def hexTable : List Byte :=
  [0x30#8, 0x31#8, 0x32#8, 0x33#8, 0x34#8, 0x35#8, 0x36#8, 0x37#8] ++
  [0x38#8, 0x39#8, 0x61#8, 0x62#8, 0x63#8, 0x64#8, 0x65#8, 0x66#8]

/-- `HEX[n]`. -/
def hexChar (n : BitVec 4) : Byte := hexTable.getD n.toNat 0

/-- The two characters of one byte, the high nibble's first (R86). -/
def hexOfByte (b : Byte) : List Byte := [hexChar (b.extractLsb' 4 4), hexChar (b.extractLsb' 0 4)]

/-- The hex characters of a byte sequence (R86). -/
def hexOfBytes (raw : List Byte) : List Byte := raw.flatMap hexOfByte

/-- `raw`: the words the algorithm uses, disassembled in its byte order (R85). -/
def rawDigest (alg : Alg) (w : Words) : List Byte :=
  ((wordList w).take (wordCount alg)).flatMap (bytesOf (wordOrder alg))

/-- `zext_32(len)` for the payload of an `UPDATE` (R44). -/
def lenWord (data : List Byte) : Word := BitVec.ofNat 32 data.length

/-- Word `i` of sixteen, the index taken modulo 16 (`W[i mod 16]`, R122, R142). -/
def Sixteen.at (x : Sixteen) (i : Nat) : Word := x[i % 16]'(Nat.mod_lt i (by decide))

/-- `W[i mod 16] <- v`. -/
def Sixteen.put (x : Sixteen) (i : Nat) (v : Word) : Sixteen := x.set (i % 16) v (Nat.mod_lt i (by decide))

/-- Sixteen words, word `i` by a rule. -/
def sixteenOf (f : Nat → Word) : Sixteen :=
  #v[f 0, f 1, f 2, f 3, f 4, f 5, f 6, f 7, f 8, f 9, f 10, f 11, f 12, f 13, f 14, f 15]

end Sys2Proof.Machine
end

