-- ==== Sys2Proof/Machine/Memory.lean ====
section
/-! DEFINITION. The operations over the scratch buffer: byte read and write, `MemRead`, `MemWrite`, `LoadWord`,
`StoreWord`, zero fill (00_scope.md section 6; 20_memory.md rules R27, R28, R37). Every write keeps the canonical form. -/

namespace Sys2Proof.Machine

/-- `S[a]`; a byte that is not listed is 0x00 (R21). -/
def Memory.read : Memory → Nat → Byte
  | [], _ => 0#8
  | (k, v) :: m, a => if k = a then v else Memory.read m a

/-- `S[a] <- b`: writing 0x00 removes the entry. -/
def Memory.write : Memory → Nat → Byte → Memory
  | [], a, b => if b = 0#8 then [] else [(a, b)]
  | (k, v) :: m, a, b =>
    if a < k then (if b = 0#8 then (k, v) :: m else (a, b) :: (k, v) :: m)
    else if a = k then (if b = 0#8 then m else (a, b) :: m)
    else (k, v) :: Memory.write m a b

/-- `MemWrite(a, n, v)`, `v[0]` to the lowest address. -/
def Memory.writeBytes : Memory → Nat → List Byte → Memory
  | m, _, [] => m
  | m, a, b :: bs => Memory.writeBytes (m.write a b) (a + 1) bs

/-- `MemRead(a, n)`. -/
def Memory.readBytes (m : Memory) (a n : Nat) : List Byte := (List.range n).map fun i => m.read (a + i)

/-- 0x00 into every byte of `lo .. lo + n - 1`. -/
def Memory.zeroFill (m : Memory) (lo n : Nat) : Memory :=
  m.filter fun p => !(lo ≤ p.1 && p.1 < lo + n)

/-- `LoadWord(order, a)` (R27): four single-byte reads (R31). -/
def Memory.loadWord (m : Memory) (order : WordOrder) (a : Nat) : Word :=
  wordOf order (m.read a) (m.read (a + 1)) (m.read (a + 2)) (m.read (a + 3))

/-- `StoreWord(order, a, v)` (R28): four single-byte writes (R31). -/
def Memory.storeWord (m : Memory) (order : WordOrder) (a : Nat) (v : Word) : Memory :=
  m.writeBytes a (bytesOf order v)

end Sys2Proof.Machine
end

