-- ==== Sys2Proof/Machine/Ops.lean ====
section
/-! DEFINITION. The named operations over registers and buffer that the commands share: the updates of State, `index`,
the block region, `AddCount`, `ZeroScratch`, the initial state of a computation, and the contract checks.

TAKING AN EXCEPTION: this hardware has no exception, no trap entry and no return from one (60_exceptions.md rules R190,
R191, R199, R200, R202). What stands in their place is the refusal of a command outside the source's contract (R193), and
the checks that lead to it, in the order of R192, are the operation `contract` below. -/

namespace Sys2Proof.Machine

/-! ## Updates of State -/

/-- `words <- w`. -/
def State.setWords (s : State) (w : Words) : State := { s with words := w }

/-- `(countHi, countLo) <- p`. -/
def State.setCount (s : State) (p : Word × Word) : State := { s with countHi := p.1, countLo := p.2 }

/-- `S <- m`. -/
def State.setMem (s : State) (m : Memory) : State := { s with mem := m }

/-- `phase <- p`. -/
def State.setPhase (s : State) (p : Phase) : State := { s with phase := p }

/-- Working registers. -/
def State.setWork (s : State) (w : Work) : State := { s with work := w }

/-- The internal request line. -/
def State.setCreq (s : State) (r : Option (BitVec 2)) : State := { s with creq := r }

/-- What the host presents. -/
def State.setPending (s : State) (p : List HostInput) : State := { s with pending := p }

/-- What the host has read. -/
def State.setReceived (s : State) (r : List Byte) : State := { s with received := r }

/-! ## Counter, buffer -/

/-- `byteCount` (R12). -/
def State.byteCount (s : State) : Nat := byteCountOf s.countHi s.countLo

/-- `index = countLo[5:0]` (R61). -/
def State.index (s : State) : Nat := (s.countLo.extractLsb' 0 6).toNat

/-- `B[i] = S[HDR + i]` (R13). -/
def blockByte (c : Config) (s : State) (i : Nat) : Byte := s.mem.read (c.hdr + i)

/-- Bytes into the block region from `B[i]` upward. -/
def writeBlock (c : Config) (s : State) (i : Nat) (data : List Byte) : State :=
  s.setMem (s.mem.writeBytes (c.hdr + i) data)

/-- The message words `LoadWord(order, HDR + 4*i)`, `i` in 0..15 (R29 (a)). -/
def loadBlock (c : Config) (order : WordOrder) (s : State) : Sixteen :=
  sixteenOf fun i => s.mem.loadWord order (c.hdr + 4 * i)

/-- `AddCount(len)` (R62). -/
def countBytes (s : State) (len : Word) : State := s.setCount (addCount s.countHi s.countLo len)

/-- `ZeroScratch()`: all `BUFSZ` bytes (R37). -/
def zeroScratch (c : Config) (s : State) : State := s.setMem (s.mem.zeroFill 0 c.bufsz)

/-- What `INIT` does with its initial words (R65 to R68): the context and `phase`, nothing else; `S` is not touched. -/
def beginWith (alg : Alg) (iv : Words) (s : State) : State :=
  ((s.setWords iv).setCount (0, 0)).setPhase (.active alg)

/-! ## The contract (R60, R80, R192 to R196) -/

/-- Checks (2) and (3) of R60 and R80: `NoComputation`, then `AlgorithmMismatch`. -/
def phaseCheck (alg : Alg) (s : State) : Option Refusal :=
  match s.phase with
  | .idle => some .noComputation
  | .active a => if a = alg then none else some .algorithmMismatch

/-- Check (4) of R60: `byteCount + len <= MAXBYTES`, else `ByteCeiling` (R196). -/
def ceilingCheck (c : Config) (len : Nat) (s : State) : Option Refusal :=
  if s.byteCount + len ≤ c.maxBytes then none else some .byteCeiling

/-- A command runs only when no check gives a reason to refuse it; the first reason in order is the one reported (R192). -/
def contract (checks : List (Option Refusal)) (run : State) : Host.Outcome State Fault Refusal :=
  match checks.findSome? id with
  | some r => .refused r
  | none => .next run

end Sys2Proof.Machine
end

