-- ==== Sys2Proof/Machine/Md5.lean ====
section
/-! DEFINITION. The MD5 compression core, unit U1, and the instruction `MD5.COMPRESS` (42_md5_compress.md rules R100 to
R105, R107). The numeric tables are the spec's, which marks them `[from general knowledge, not in source]`. -/

namespace Sys2Proof.Machine

/-- `F_r(x, y, z)` (R102). -/
def md5F (r : Nat) (x y z : Word) : Word :=
  match r with
  | 0 => (x &&& y) ||| (~~~x &&& z)
  | 1 => (x &&& z) ||| (y &&& ~~~z)
  | 2 => x ^^^ y ^^^ z
  | _ => y ^^^ (x ||| ~~~z)

/-- `k(s)`: the message word of step `s` (R103). -/
def md5K (s : Nat) : Nat :=
  match s / 16 with
  | 0 => s % 16
  | 1 => (5 * s + 1) % 16
  | 2 => (3 * s + 5) % 16
  | _ => (7 * s) % 16

/-- `ROT`, four amounts per round (R104). -/
def md5RotTable : List (List Nat) := [[7, 12, 17, 22], [5, 9, 14, 20], [4, 11, 16, 23], [6, 10, 15, 21]]

/-- `ROT[s div 16][s mod 4]` (R104). -/
def md5Rot (s : Nat) : Nat := (md5RotTable.getD (s / 16) []).getD (s % 4) 0

/-- `T[0..63]` (R105). -/
def md5Table : List Word :=
  [0xd76aa478#32, 0xe8c7b756#32, 0x242070db#32, 0xc1bdceee#32] ++
  [0xf57c0faf#32, 0x4787c62a#32, 0xa8304613#32, 0xfd469501#32] ++
  [0x698098d8#32, 0x8b44f7af#32, 0xffff5bb1#32, 0x895cd7be#32] ++
  [0x6b901122#32, 0xfd987193#32, 0xa679438e#32, 0x49b40821#32] ++
  [0xf61e2562#32, 0xc040b340#32, 0x265e5a51#32, 0xe9b6c7aa#32] ++
  [0xd62f105d#32, 0x02441453#32, 0xd8a1e681#32, 0xe7d3fbc8#32] ++
  [0x21e1cde6#32, 0xc33707d6#32, 0xf4d50d87#32, 0x455a14ed#32] ++
  [0xa9e3e905#32, 0xfcefa3f8#32, 0x676f02d9#32, 0x8d2a4c8a#32] ++
  [0xfffa3942#32, 0x8771f681#32, 0x6d9d6122#32, 0xfde5380c#32] ++
  [0xa4beea44#32, 0x4bdecfa9#32, 0xf6bb4b60#32, 0xbebfbc70#32] ++
  [0x289b7ec6#32, 0xeaa127fa#32, 0xd4ef3085#32, 0x04881d05#32] ++
  [0xd9d4d039#32, 0xe6db99e5#32, 0x1fa27cf8#32, 0xc4ac5665#32] ++
  [0xf4292244#32, 0x432aff97#32, 0xab9423a7#32, 0xfc93a039#32] ++
  [0x655b59c3#32, 0x8f0ccc92#32, 0xffeff47d#32, 0x85845dd1#32] ++
  [0x6fa87e4f#32, 0xfe2ce6e0#32, 0xa3014314#32, 0x4e0811a1#32] ++
  [0xf7537e82#32, 0xbd3af235#32, 0x2ad7d2bb#32, 0xeb86d391#32]

/-- `T[s]`. -/
def md5T (s : Nat) : Word := md5Table.getD s 0

/-- The load of R100: `X[0..15]` from the block, the accumulators from `words[0..3]`. -/
def md5Load (w : Words) (x : Sixteen) : Md5Work := ⟨w.w0, w.w1, w.w2, w.w3, 0, 0, x⟩

/-- Step `s` of R100: the sum `t`, the new value `n`, and the simultaneous renaming `(a, b, c, d) <- (d, n, b, c)`. -/
def md5Step (r : Md5Work) (s : Nat) : Md5Work :=
  let t := r.a + md5F (s / 16) r.b r.c r.d + r.x.at (md5K s) + md5T s
  let n := r.b + rotl t (md5Rot s)
  ⟨r.d, n, r.b, r.c, t, n, r.x⟩

/-- The working registers after steps `0 .. n - 1`. -/
def md5Steps (n : Nat) (r : Md5Work) : Md5Work := (List.range n).foldl md5Step r

/-- The final addition `words[i] <- words[i] + accumulator[i]`, i = 0..3 (R107). -/
def md5Add (w : Words) (r : Md5Work) : Words :=
  { w with w0 := w.w0 + r.a, w1 := w.w1 + r.b, w2 := w.w2 + r.c, w3 := w.w3 + r.d }

/-- The compression function: pure over `words` and the sixteen message words of the block (R14, R100). -/
def md5Block (w : Words) (x : Sixteen) : Words := md5Add w (md5Steps 64 (md5Load w x))

/-- The core run once: new `words`, working registers scrubbed (R100, R107). -/
def md5Core (c : Config) (s : State) : State :=
  (s.setWords (md5Block s.words (loadBlock c .le s))).setWork { s.work with md5 := Md5Work.zero }

/-- `MD5.COMPRESS` (R100): total, no flag, no exception. -/
def execMd5Compress (s : State) : Host.Outcome State Fault Refusal := .next (md5Core Config.standard s)

end Sys2Proof.Machine
end

