-- ==== Sys2Proof/Machine/Rmd160.lean ====
section
/-! DEFINITION. The RIPEMD-160 compression core, unit U4, and the instruction `RMD160.COMPRESS` (45_ripemd160_compress.md
rules R160 to R168; the combine and the recurrence as 90_conflicts.md C5 and C6 resolve them). The numeric tables are the
spec's, which marks them `[from general knowledge, not in source]`; the index tables are generated by the recurrence. -/

namespace Sys2Proof.Machine

/-- `f_j(x, y, z)` (R162). -/
def rmdF (j : Nat) (x y z : Word) : Word :=
  match j with
  | 0 => x ^^^ y ^^^ z
  | 1 => (x &&& y) ||| (~~~x &&& z)
  | 2 => (x ||| ~~~y) ^^^ z
  | 3 => (x &&& z) ||| (y &&& ~~~z)
  | _ => x ^^^ (y ||| ~~~z)

/-- `KL[0..4]` (R163). -/
def rmdKL (j : Nat) : Word :=
  [0x00000000#32, 0x5A827999#32, 0x6ED9EBA1#32, 0x8F1BBCDC#32, 0xA953FD4E#32].getD j 0

/-- `KR[0..4]` (R163). -/
def rmdKR (j : Nat) : Word :=
  [0x50A28BE6#32, 0x5C4DD124#32, 0x6D703EF3#32, 0x7A6D76E9#32, 0x00000000#32].getD j 0

/-- The fixed permutation `rho` (R164). -/
def rmdRhoTable : List Nat := [7, 4, 13, 1, 10, 6, 15, 3, 12, 0, 9, 5, 2, 14, 11, 8]

/-- `rho[u]`. -/
def rmdRho (u : Nat) : Nat := rmdRhoTable.getD u 0

/-- `RL[j][u]`: the identity, then `rho` applied to each entry (R164). -/
def rmdRL : Nat → Nat → Nat
  | 0, u => u
  | j + 1, u => rmdRho (rmdRL j u)

/-- `RR[j][u]`: `pi[u] = (9*u + 5) mod 16`, then `rho` applied to each entry (R164, C6). -/
def rmdRR : Nat → Nat → Nat
  | 0, u => (9 * u + 5) % 16
  | j + 1, u => rmdRho (rmdRR j u)

/-- `SL` (R165). -/
def rmdSLTable : List (List Nat) :=
  [[11, 14, 15, 12, 5, 8, 7, 9, 11, 13, 14, 15, 6, 7, 9, 8],
   [7, 6, 8, 13, 11, 9, 7, 15, 7, 12, 15, 9, 11, 7, 13, 12],
   [11, 13, 6, 7, 14, 9, 13, 15, 14, 8, 13, 6, 5, 12, 7, 5],
   [11, 12, 14, 15, 14, 15, 9, 8, 9, 14, 5, 6, 8, 6, 5, 12],
   [9, 15, 5, 11, 6, 8, 13, 12, 5, 12, 13, 14, 11, 8, 5, 6]]

/-- `SR` (R165). -/
def rmdSRTable : List (List Nat) :=
  [[8, 9, 9, 11, 13, 15, 15, 5, 7, 7, 8, 11, 14, 14, 12, 6],
   [9, 13, 15, 7, 12, 8, 9, 11, 7, 7, 12, 7, 6, 15, 13, 11],
   [9, 7, 15, 11, 8, 6, 6, 14, 12, 13, 5, 14, 13, 13, 7, 5],
   [15, 5, 8, 11, 14, 14, 6, 14, 6, 9, 12, 9, 12, 5, 15, 8],
   [8, 5, 12, 9, 12, 5, 14, 6, 8, 13, 6, 5, 15, 13, 11, 11]]

/-- `SL[j][u]`. -/
def rmdSL (j u : Nat) : Nat := (rmdSLTable.getD j []).getD u 0

/-- `SR[j][u]`. -/
def rmdSR (j u : Nat) : Nat := (rmdSRTable.getD j []).getD u 0

/-- The five words of a lane's start (R160). -/
def fiveOf (w : Words) : Five := ⟨w.w0, w.w1, w.w2, w.w3, w.w4⟩

/-- The load of R160 (R161): both lanes start from `words[0..4]`. -/
def rmdLoad (w : Words) (x : Sixteen) : Rmd160Work :=
  { Rmd160Work.zero with left := fiveOf w, right := fiveOf w, x := x }

/-- `tl` of step `s` (R160). -/
def rmdLeftSum (l : Five) (x : Sixteen) (s : Nat) : Word :=
  rotl (l.a + rmdF (s / 16) l.b l.c l.d + x.at (rmdRL (s / 16) (s % 16)) + rmdKL (s / 16)) (rmdSL (s / 16) (s % 16)) + l.e

/-- `tr` of step `s` (R160): the round functions in reverse order (R162). -/
def rmdRightSum (r : Five) (x : Sixteen) (s : Nat) : Word :=
  rotl (r.a + rmdF (4 - s / 16) r.b r.c r.d + x.at (rmdRR (s / 16) (s % 16)) + rmdKR (s / 16)) (rmdSR (s / 16) (s % 16)) + r.e

/-- The data movement `(a, b, c, d, e) <- (e, t, b, rotl(c, 10), d)` (R166). -/
def rmdMove (r : Five) (t : Word) : Five := ⟨r.e, t, r.b, rotl r.c 10, r.d⟩

/-- Step `s` of R160 in both lanes. -/
def rmdStep (k : Rmd160Work) (s : Nat) : Rmd160Work :=
  let tl := rmdLeftSum k.left k.x s
  let tr := rmdRightSum k.right k.x s
  { k with left := rmdMove k.left tl, right := rmdMove k.right tr, tl := tl, tr := tr }

/-- The working registers after steps `0 .. n - 1`. -/
def rmdSteps (n : Nat) (k : Rmd160Work) : Rmd160Work := (List.range n).foldl rmdStep k

/-- The copies the combine reads: `L`, `R`, `old` (R160). -/
def rmdCopy (w : Words) (k : Rmd160Work) : Rmd160Work :=
  { k with copyL := k.left, copyR := k.right, old := fiveOf w }

/-- The combine `words[i] <- old[(i+1) mod 5] + L[(i+2) mod 5] + R[(i+3) mod 5]` (R167, C5). -/
def rmdCombine (w : Words) (k : Rmd160Work) : Words :=
  { w with
    w0 := k.old.b + k.copyL.c + k.copyR.d
    w1 := k.old.c + k.copyL.d + k.copyR.e
    w2 := k.old.d + k.copyL.e + k.copyR.a
    w3 := k.old.e + k.copyL.a + k.copyR.b
    w4 := k.old.a + k.copyL.b + k.copyR.c }

/-- The compression function: pure over `words` and the sixteen message words of the block (R14, R160). -/
def rmdBlock (w : Words) (x : Sixteen) : Words := rmdCombine w (rmdCopy w (rmdSteps 80 (rmdLoad w x)))

/-- The core run once: new `words`, working registers scrubbed (R160, R168). -/
def rmdCore (c : Config) (s : State) : State :=
  (s.setWords (rmdBlock s.words (loadBlock c .le s))).setWork { s.work with rmd160 := Rmd160Work.zero }

/-- `RMD160.COMPRESS` (R160): total, no flag, no exception. -/
def execRmd160Compress (s : State) : Host.Outcome State Fault Refusal := .next (rmdCore Config.standard s)

end Sys2Proof.Machine
end

