-- ==== Sys2Proof/Machine/Sha1.lean ====
section
/-! DEFINITION. The SHA-1 compression core, unit U2, and the instruction `SHA1.COMPRESS` (43_sha1_compress.md rules R120 to
R126). The constants and formulas are the spec's, which marks them `[from general knowledge, not in source]`. -/

namespace Sys2Proof.Machine

/-- `G_r(x, y, z)`: choose, parity, majority, parity (R123). -/
def sha1G (r : Nat) (x y z : Word) : Word :=
  match r with
  | 0 => chooseF x y z
  | 1 => parityF x y z
  | 2 => majorityF x y z
  | _ => parityF x y z

/-- `K1[0..3]` (R124). -/
def sha1Table : List Word := [0x5A827999#32, 0x6ED9EBA1#32, 0x8F1BBCDC#32, 0xCA62C1D6#32]

/-- `K1[r]`. -/
def sha1K (r : Nat) : Word := sha1Table.getD r 0

/-- The load of R120 (R121). -/
def sha1Load (w : Words) (x : Sixteen) : Sha1Work := ⟨w.w0, w.w1, w.w2, w.w3, w.w4, 0, x⟩

/-- The rolling window at step `s`: from step 16 on, schedule word `s` replaces schedule word `s - 16` (R122). -/
def sha1Window (w : Sixteen) (s : Nat) : Sixteen :=
  if 16 ≤ s then w.put s (rotl (w.at (s - 3) ^^^ w.at (s - 8) ^^^ w.at (s - 14) ^^^ w.at (s - 16)) 1) else w

/-- Step `s` of R120, with the data movement of R125. -/
def sha1Step (r : Sha1Work) (s : Nat) : Sha1Work :=
  let w := sha1Window r.w s
  let t := rotl r.a 5 + sha1G (s / 20) r.b r.c r.d + r.e + sha1K (s / 20) + w.at s
  ⟨t, r.a, rotr r.b 2, r.c, r.d, t, w⟩

/-- The working registers after steps `0 .. n - 1`. -/
def sha1Steps (n : Nat) (r : Sha1Work) : Sha1Work := (List.range n).foldl sha1Step r

/-- The final addition into `words[0..4]` (R126). -/
def sha1Add (w : Words) (r : Sha1Work) : Words :=
  { w with w0 := w.w0 + r.a, w1 := w.w1 + r.b, w2 := w.w2 + r.c, w3 := w.w3 + r.d, w4 := w.w4 + r.e }

/-- The compression function: pure over `words` and the sixteen message words of the block (R14, R120). -/
def sha1Block (w : Words) (x : Sixteen) : Words := sha1Add w (sha1Steps 80 (sha1Load w x))

/-- The core run once: new `words`, working registers scrubbed (R120, R126). -/
def sha1Core (c : Config) (s : State) : State :=
  (s.setWords (sha1Block s.words (loadBlock c .be s))).setWork { s.work with sha1 := Sha1Work.zero }

/-- `SHA1.COMPRESS` (R120): total, no flag, no exception. -/
def execSha1Compress (s : State) : Host.Outcome State Fault Refusal := .next (sha1Core Config.standard s)

end Sys2Proof.Machine
end

