-- ==== Sys2Proof/Machine/Sha256.lean ====
section
/-! DEFINITION. The SHA-256 compression core, unit U3, and the instruction `SHA256.COMPRESS` (44_sha256_compress.md rules
R140 to R146; the right shift of `ssig1` as 90_conflicts.md C3 resolves it). The numeric tables are the spec's, which marks
them `[from general knowledge, not in source]`. -/

namespace Sys2Proof.Machine

/-- `ssig0` (R142). -/
def ssig0 (x : Word) : Word := rotr x 7 ^^^ rotr x 18 ^^^ shr x 3

/-- `ssig1` (R142, C3). -/
def ssig1 (x : Word) : Word := rotr x 17 ^^^ rotr x 19 ^^^ shr x 10

/-- `bsig0` (R143). -/
def bsig0 (x : Word) : Word := rotr x 2 ^^^ rotr x 13 ^^^ rotr x 22

/-- `bsig1` (R143). -/
def bsig1 (x : Word) : Word := rotr x 6 ^^^ rotr x 11 ^^^ rotr x 25

/-- `Ch(e, f, g)` as R144 writes it. -/
def sha256Ch (e f g : Word) : Word := (e &&& f) ^^^ (~~~e &&& g)

/-- `Maj(a, b, c)` as R144 writes it. -/
def sha256Maj (a b c : Word) : Word := (a &&& b) ^^^ (a &&& c) ^^^ (b &&& c)

/-- `K2[0..63]` (R145). -/
def sha256Table : List Word :=
  [0x428a2f98#32, 0x71374491#32, 0xb5c0fbcf#32, 0xe9b5dba5#32] ++
  [0x3956c25b#32, 0x59f111f1#32, 0x923f82a4#32, 0xab1c5ed5#32] ++
  [0xd807aa98#32, 0x12835b01#32, 0x243185be#32, 0x550c7dc3#32] ++
  [0x72be5d74#32, 0x80deb1fe#32, 0x9bdc06a7#32, 0xc19bf174#32] ++
  [0xe49b69c1#32, 0xefbe4786#32, 0x0fc19dc6#32, 0x240ca1cc#32] ++
  [0x2de92c6f#32, 0x4a7484aa#32, 0x5cb0a9dc#32, 0x76f988da#32] ++
  [0x983e5152#32, 0xa831c66d#32, 0xb00327c8#32, 0xbf597fc7#32] ++
  [0xc6e00bf3#32, 0xd5a79147#32, 0x06ca6351#32, 0x14292967#32] ++
  [0x27b70a85#32, 0x2e1b2138#32, 0x4d2c6dfc#32, 0x53380d13#32] ++
  [0x650a7354#32, 0x766a0abb#32, 0x81c2c92e#32, 0x92722c85#32] ++
  [0xa2bfe8a1#32, 0xa81a664b#32, 0xc24b8b70#32, 0xc76c51a3#32] ++
  [0xd192e819#32, 0xd6990624#32, 0xf40e3585#32, 0x106aa070#32] ++
  [0x19a4c116#32, 0x1e376c08#32, 0x2748774c#32, 0x34b0bcb5#32] ++
  [0x391c0cb3#32, 0x4ed8aa4a#32, 0x5b9cca4f#32, 0x682e6ff3#32] ++
  [0x748f82ee#32, 0x78a5636f#32, 0x84c87814#32, 0x8cc70208#32] ++
  [0x90befffa#32, 0xa4506ceb#32, 0xbef9a3f7#32, 0xc67178f2#32]

/-- `K2[s]`. -/
def sha256K (s : Nat) : Word := sha256Table.getD s 0

/-- The load of R140 (R141). -/
def sha256Load (w : Words) (x : Sixteen) : Sha256Work :=
  ⟨w.w0, w.w1, w.w2, w.w3, w.w4, w.w5, w.w6, w.w7, 0, 0, x⟩

/-- The window at step `s`: from step 16 on, three terms are added to schedule word `s - 16`, which becomes schedule
word `s` (R142). -/
def sha256Window (w : Sixteen) (s : Nat) : Sixteen :=
  if 16 ≤ s then w.put s (w.at s + ssig1 (w.at (s - 2)) + w.at (s - 7) + ssig0 (w.at (s - 15))) else w

/-- Step `s` of R140, with its simultaneous renaming. -/
def sha256Step (r : Sha256Work) (s : Nat) : Sha256Work :=
  let w := sha256Window r.w s
  let t1 := r.h + bsig1 r.e + sha256Ch r.e r.f r.g + sha256K s + w.at s
  let t2 := bsig0 r.a + sha256Maj r.a r.b r.c
  ⟨t1 + t2, r.a, r.b, r.c, r.d + t1, r.e, r.f, r.g, t1, t2, w⟩

/-- The working registers after steps `0 .. n - 1`. -/
def sha256Steps (n : Nat) (r : Sha256Work) : Sha256Work := (List.range n).foldl sha256Step r

/-- The final addition into `words[0..7]` (R146). -/
def sha256Add (w : Words) (r : Sha256Work) : Words :=
  ⟨w.w0 + r.a, w.w1 + r.b, w.w2 + r.c, w.w3 + r.d, w.w4 + r.e, w.w5 + r.f, w.w6 + r.g, w.w7 + r.h⟩

/-- The compression function: pure over `words` and the sixteen message words of the block (R14, R140). -/
def sha256Block (w : Words) (x : Sixteen) : Words := sha256Add w (sha256Steps 64 (sha256Load w x))

/-- The core run once: new `words`, working registers scrubbed (R140, R146). -/
def sha256Core (c : Config) (s : State) : State :=
  (s.setWords (sha256Block s.words (loadBlock c .be s))).setWork { s.work with sha256 := Sha256Work.zero }

/-- `SHA256.COMPRESS` (R140): total, no flag, no exception. -/
def execSha256Compress (s : State) : Host.Outcome State Fault Refusal := .next (sha256Core Config.standard s)

end Sys2Proof.Machine
end

