-- ==== Sys2Proof/Machine/Compress.lean ====
section
/-! DEFINITION. `Compress(alg)`: the core selected by `alg` run once, its registers scrubbed, the whole buffer zeroed
(40_init_update.md rule R64). -/

namespace Sys2Proof.Machine

/-- The core that the request code `creq = alg` selects (30_encoding.md rule R43), run once. -/
def runCore (c : Config) : Alg → State → State
  | .md5, s => md5Core c s
  | .sha1, s => sha1Core c s
  | .sha256, s => sha256Core c s
  | .rmd160, s => rmdCore c s

/-- `Compress(alg)` (R64). -/
def compress (c : Config) (alg : Alg) (s : State) : State := zeroScratch c (runCore c alg s)

end Sys2Proof.Machine
end

