-- ==== Sys2Proof/Machine/Final.lean ====
section
/-! DEFINITION. The padding and finalization engine, unit U6: the seven stages of `Finalize` and the four `FINAL` commands
(41_final.md rules R80 to R91, R94; the order of the length words as 90_conflicts.md C4 resolves it). -/

namespace Sys2Proof.Machine

/-- Stage 1, marker and zero fill: `0x80` at `B[index]`, 0x00 up to `B[63]` (R81). -/
def padMarker (c : Config) (s : State) : State :=
  writeBlock c s s.index (0x80#8 :: List.replicate (63 - s.index) 0#8)

/-- Stage 2, spill: fewer than 8 bytes remain exactly when `index >= 56` (R82). -/
def padSpill (c : Config) (alg : Alg) (s : State) : State := if 56 ≤ s.index then compress c alg s else s

/-- Stage 3, bytes to bits, in place (R83). -/
def countToBits (s : State) : State := s.setCount (bitCount s.countHi s.countLo)

/-- The two words of the length field, in the order they are written (R84). -/
def lengthWords (order : LenOrder) (s : State) : Word × Word :=
  match order with
  | .lowFirst => (s.countLo, s.countHi)
  | .highFirst => (s.countHi, s.countLo)

/-- Stage 4, length field: `StoreWord` at `HDR + 56` and `HDR + 60` (R84). -/
def storeLength (c : Config) (alg : Alg) (s : State) : State :=
  let p := lengthWords (c.lenOrder alg) s
  s.setMem ((s.mem.storeWord (wordOrder alg) (c.hdr + 56) p.1).storeWord (wordOrder alg) (c.hdr + 60) p.2)

/-- The second half of stage 5: the raw digest bytes at the start of the buffer, a transient that stage 6 overwrites
(R85). -/
def placeRaw (raw : List Byte) (s : State) : State := s.setMem (s.mem.writeBytes 0 raw)

/-- Stage 6, hex expansion: two characters per raw byte from `S[0]` up, then 0x00 to the end of the buffer (R86). -/
def expandHex (c : Config) (raw : List Byte) (s : State) : State :=
  s.setMem ((s.mem.writeBytes 0 (hexOfBytes raw)).zeroFill (2 * raw.length) (c.bufsz - 2 * raw.length))

/-- Stage 7, scrub of the context (R87). -/
def scrub (s : State) : State := ((s.setWords Words.zero).setCount (0, 0)).setPhase .idle

/-- Stages 1 to 4 and the compression of stage 5: the padded last block or blocks folded into `words` (R81 to R85). -/
def closeBlocks (c : Config) (alg : Alg) (s : State) : State :=
  compress c alg (storeLength c alg (countToBits (padSpill c alg (padMarker c s))))

/-- Stages 5 (raw digest) to 7 (R85 to R87). -/
def emitDigest (c : Config) (alg : Alg) (s : State) : State :=
  let raw := rawDigest alg s.words
  scrub (expandHex c raw (placeRaw raw s))

/-- `Finalize(alg)` (R94). -/
def finalize (c : Config) (alg : Alg) (s : State) : State := emitDigest c alg (closeBlocks c alg s)

/-- `FINAL` of algorithm `alg`: the checks of R80 in their order, then `Finalize`. -/
def finish (c : Config) (alg : Alg) (s : State) : Host.Outcome State Fault Refusal :=
  contract [phaseCheck alg s] (finalize c alg s)

/-- `MD5.FINAL` (R88). -/
def execMd5Final (s : State) : Host.Outcome State Fault Refusal := finish Config.standard .md5 s

/-- `SHA1.FINAL` (R89). -/
def execSha1Final (s : State) : Host.Outcome State Fault Refusal := finish Config.standard .sha1 s

/-- `SHA256.FINAL` (R90). -/
def execSha256Final (s : State) : Host.Outcome State Fault Refusal := finish Config.standard .sha256 s

/-- `RMD160.FINAL` (R91). -/
def execRmd160Final (s : State) : Host.Outcome State Fault Refusal := finish Config.standard .rmd160 s

end Sys2Proof.Machine
end

