-- ==== Sys2Proof/Machine/Init.lean ====
section
/-! DEFINITION. The four `INIT` commands (40_init_update.md rules R65 to R68): always inside the contract (R60). -/

namespace Sys2Proof.Machine

/-- MD5's initial words (R65). -/
def md5Iv : Words := ⟨0x67452301#32, 0xEFCDAB89#32, 0x98BADCFE#32, 0x10325476#32, 0, 0, 0, 0⟩

/-- SHA-1's initial words (R66). -/
def sha1Iv : Words := ⟨0x67452301#32, 0xEFCDAB89#32, 0x98BADCFE#32, 0x10325476#32, 0xC3D2E1F0#32, 0, 0, 0⟩

/-- SHA-256's initial words (R67). -/
def sha256Iv : Words :=
  ⟨0x6A09E667#32, 0xBB67AE85#32, 0x3C6EF372#32, 0xA54FF53A#32, 0x510E527F#32, 0x9B05688C#32, 0x1F83D9AB#32, 0x5BE0CD19#32⟩

/-- RIPEMD-160's initial words (R68). -/
def rmd160Iv : Words := ⟨0x67452301#32, 0xEFCDAB89#32, 0x98BADCFE#32, 0x10325476#32, 0xC3D2E1F0#32, 0, 0, 0⟩

/-- `MD5.INIT` (R65). -/
def execMd5Init (s : State) : Host.Outcome State Fault Refusal := .next (beginWith .md5 md5Iv s)

/-- `SHA1.INIT` (R66). -/
def execSha1Init (s : State) : Host.Outcome State Fault Refusal := .next (beginWith .sha1 sha1Iv s)

/-- `SHA256.INIT` (R67). -/
def execSha256Init (s : State) : Host.Outcome State Fault Refusal := .next (beginWith .sha256 sha256Iv s)

/-- `RMD160.INIT` (R68). -/
def execRmd160Init (s : State) : Host.Outcome State Fault Refusal := .next (beginWith .rmd160 rmd160Iv s)

end Sys2Proof.Machine
end

