-- ==== Sys2Proof/Machine/Update.lean ====
section
/-! DEFINITION. The block accumulator, unit U5: `Absorb` and the four `UPDATE` commands (40_init_update.md rules R60 to
R63, R69 to R72). -/

namespace Sys2Proof.Machine

/-- The whole blocks and the remainder of `Absorb`, after its first compression: `n` strides of 64 bytes to the block
start, a compression after each, then what is left to the block start (R63). -/
def absorbStrides (c : Config) (alg : Alg) : Nat → List Byte → State → State
  | 0, data, s => writeBlock c s 0 data
  | n + 1, data, s => absorbStrides c alg n (data.drop 64) (compress c alg (writeBlock c s 0 (data.take 64)))

/-- `Absorb(alg, data)` (R63): `index` and `partial` are taken before the counter changes (R61). -/
def absorb (c : Config) (alg : Alg) (data : List Byte) (s : State) : State :=
  let index := s.index
  let room := 64 - index
  let s1 := countBytes s (lenWord data)
  if room ≤ data.length then
    let rest := data.drop room
    absorbStrides c alg (rest.length / 64) rest (compress c alg (writeBlock c s1 index (data.take room)))
  else writeBlock c s1 index data

/-- `UPDATE` of algorithm `alg`: the checks of R60 in their order, then `Absorb`. -/
def update (c : Config) (alg : Alg) (data : List Byte) (s : State) : Host.Outcome State Fault Refusal :=
  contract [phaseCheck alg s, ceilingCheck c data.length s] (absorb c alg data s)

/-- `MD5.UPDATE` (R69). -/
def execMd5Update (data : List Byte) (s : State) : Host.Outcome State Fault Refusal := update Config.standard .md5 data s

/-- `SHA1.UPDATE` (R70). -/
def execSha1Update (data : List Byte) (s : State) : Host.Outcome State Fault Refusal := update Config.standard .sha1 data s

/-- `SHA256.UPDATE` (R71). -/
def execSha256Update (data : List Byte) (s : State) : Host.Outcome State Fault Refusal :=
  update Config.standard .sha256 data s

/-- `RMD160.UPDATE` (R72). -/
def execRmd160Update (data : List Byte) (s : State) : Host.Outcome State Fault Refusal :=
  update Config.standard .rmd160 data s

end Sys2Proof.Machine
end

