-- ==== Sys2Proof/Machine/Dispatch.lean ====
section
/-! DEFINITION. One arm per row of the opcode map (30_encoding.md rule R45), each one call of that instruction's meaning. -/

namespace Sys2Proof.Machine

def exec (i : Instr) (s : State) : Host.Outcome State Fault Refusal :=
  match i with
  | .md5Init => Sys2Proof.Machine.execMd5Init s
  | .sha1Init => Sys2Proof.Machine.execSha1Init s
  | .sha256Init => Sys2Proof.Machine.execSha256Init s
  | .rmd160Init => Sys2Proof.Machine.execRmd160Init s
  | .md5Update data => Sys2Proof.Machine.execMd5Update data s
  | .sha1Update data => Sys2Proof.Machine.execSha1Update data s
  | .sha256Update data => Sys2Proof.Machine.execSha256Update data s
  | .rmd160Update data => Sys2Proof.Machine.execRmd160Update data s
  | .md5Final => Sys2Proof.Machine.execMd5Final s
  | .sha1Final => Sys2Proof.Machine.execSha1Final s
  | .sha256Final => Sys2Proof.Machine.execSha256Final s
  | .rmd160Final => Sys2Proof.Machine.execRmd160Final s
  | .md5Compress => Sys2Proof.Machine.execMd5Compress s
  | .sha1Compress => Sys2Proof.Machine.execSha1Compress s
  | .sha256Compress => Sys2Proof.Machine.execSha256Compress s
  | .rmd160Compress => Sys2Proof.Machine.execRmd160Compress s

end Sys2Proof.Machine
end

