-- ==== Sys2Proof/WellFormed.lean ====
section
/-! DEFINITION. The one check an instruction as syntax can fail: the payload of an `UPDATE` has at most 65535 bytes, the
16-bit bound of `len` (00_scope.md rule R5 `LENMAX`; 30_encoding.md rule R42). -/

namespace Sys2Proof

/-- `LENMAX` (R5). -/
def lenMax : Nat := 65535

/-- The payload an instruction carries; empty for every instruction but `UPDATE` (R54). -/
def Instr.payload : Instr → List Byte
  | .md5Init => []
  | .sha1Init => []
  | .sha256Init => []
  | .rmd160Init => []
  | .md5Update d => d
  | .sha1Update d => d
  | .sha256Update d => d
  | .rmd160Update d => d
  | .md5Final => []
  | .sha1Final => []
  | .sha256Final => []
  | .rmd160Final => []
  | .md5Compress => []
  | .sha1Compress => []
  | .sha256Compress => []
  | .rmd160Compress => []

/-- Well-formed: the payload's length fits the 16-bit `len` field. -/
def Instr.wellFormed (i : Instr) : Bool := i.payload.length ≤ lenMax

end Sys2Proof
end

