-- ==== Sys2Proof/Decode.lean ====
section
/-! DEFINITION. The decoder, total on every command word with every payload and on every request code, and the encoder
after it (30_encoding.md rules R40 to R47, R54; 70_reset_and_hazards.md rule R217). -/

namespace Sys2Proof

/-- Why a command is not decoded. -/
inductive DecodeError where
  /-- the word matches no row of the opcode map (R46) -/
  | reservedEncoding
  /-- the payload's length is not the word's `len` field: ill-formed input (R217) -/
  | payloadLength
deriving DecidableEq, Repr

/-- `op = cmd[1:0]` (R41, R42). -/
def opField (w : Word) : BitVec 2 := w.extractLsb' 0 2

/-- `alg = cmd[3:2]` (R41, R42). -/
def algField (w : Word) : BitVec 2 := w.extractLsb' 2 2

/-- `rsv = cmd[15:4]` (R41, R42). -/
def rsvField (w : Word) : BitVec 12 := w.extractLsb' 4 12

/-- `len = cmd[31:16]` (R41, R42, R44). -/
def lenField (w : Word) : BitVec 16 := w.extractLsb' 16 16

/-- `ALGCODE` read backwards (00_scope.md rule R5): every one of the four codes is assigned. -/
def algOfCode (code : BitVec 2) : Alg :=
  if code = 0#2 then .md5 else if code = 1#2 then .sha1 else if code = 2#2 then .sha256 else .rmd160

/-- The decoder of host commands: first the reserved words (R46, R192), then the payload's length (R217). `INIT` and
`FINAL` are format C, `UPDATE` is format U. -/
def decodeCommand (w : Word) (payload : List Byte) : Except DecodeError Instr :=
  if rsvField w ≠ 0#12 then .error .reservedEncoding
  else if opField w = 0#2 then
    if lenField w ≠ 0#16 then .error .reservedEncoding
    else if payload ≠ [] then .error .payloadLength
    else .ok (.init (algOfCode (algField w)))
  else if opField w = 1#2 then
    if payload.length ≠ (lenField w).toNat then .error .payloadLength
    else .ok (.update (algOfCode (algField w)) payload)
  else if opField w = 2#2 then
    if lenField w ≠ 0#16 then .error .reservedEncoding
    else if payload ≠ [] then .error .payloadLength
    else .ok (.final (algOfCode (algField w)))
  else .error .reservedEncoding

/-- The decoder of internal requests: `creq = alg` (R43); format K has no reserved value (R46). -/
def decodeRequest (code : BitVec 2) : Instr := .compress (algOfCode code)

/-- The decoder. -/
def decode : Encoded → Except DecodeError Instr
  | .command w payload => decodeCommand w payload
  | .request code => .ok (decodeRequest code)

/-- What `nbits` bits `w` stand for on the ports: a row of the table that is two bits wide is a request code, any other
row is a command word, followed by as many zero bytes of payload as the word's `len` field says when it is an `UPDATE`. -/
def encodedOfTableWord (nbits w : Nat) : Encoded :=
  if nbits ≤ 8 then .request (BitVec.ofNat 2 w)
  else
    let word : Word := BitVec.ofNat 32 w
    .command word (if opField word = 1#2 then List.replicate (lenField word).toNat 0#8 else [])

/-- The instruction this decoder reads from an instruction numbered as spec/opcode_table.json numbers it. -/
def decodeTableWord (nbits w : Nat) : Option Instr :=
  match decode (encodedOfTableWord nbits w) with
  | .ok i => some i
  | .error _ => none

/-- `ALGCODE` (R5). -/
def algCode : Alg → BitVec 2
  | .md5 => 0#2
  | .sha1 => 1#2
  | .sha256 => 2#2
  | .rmd160 => 3#2

/-- Bits 15:0 of a command word: `rsv = 0`, then `alg`, then `op` (R41, R42). -/
def lowHalf (alg : Alg) (op : BitVec 2) : BitVec 16 := 0#12 ++ algCode alg ++ op

/-- A format C word (R41). -/
def encodeC (alg : Alg) (op : BitVec 2) : Encoded := .command (0#16 ++ lowHalf alg op) []

/-- A format U word with its payload (R42). -/
def encodeU (alg : Alg) (data : List Byte) : Encoded :=
  .command (BitVec.ofNat 16 data.length ++ lowHalf alg 1#2) data

/-- The encoder. -/
def encode : Instr → Encoded
  | .md5Init => encodeC .md5 0#2
  | .sha1Init => encodeC .sha1 0#2
  | .sha256Init => encodeC .sha256 0#2
  | .rmd160Init => encodeC .rmd160 0#2
  | .md5Update d => encodeU .md5 d
  | .sha1Update d => encodeU .sha1 d
  | .sha256Update d => encodeU .sha256 d
  | .rmd160Update d => encodeU .rmd160 d
  | .md5Final => encodeC .md5 2#2
  | .sha1Final => encodeC .sha1 2#2
  | .sha256Final => encodeC .sha256 2#2
  | .rmd160Final => encodeC .rmd160 2#2
  | .md5Compress => .request 0#2
  | .sha1Compress => .request 1#2
  | .sha256Compress => .request 2#2
  | .rmd160Compress => .request 3#2

end Sys2Proof
end

