-- ==== Sys2Proof/Machine/Transport.lean ====
section
/-! DEFINITION. The ports as the core sees them between commands (30_encoding.md rules R43, R53, R54): the internal
request line, the host's command word with its payload, the scratch read port (20_memory.md rule R36) and the reset signal
(70_reset_and_hazards.md rules R210, R211). -/

namespace Sys2Proof.Machine

/-- What the sequencer finds to do next. -/
inductive Fetched where
  /-- nothing is presented: the core is idle -/
  | idle
  /-- an instruction, and the state with it taken from the port that carried it -/
  | instr (i : Instr) (s : State)
  /-- a host action that is no command, and its whole outcome -/
  | action (o : Host.Outcome State Fault Refusal)

/-- A read of the scratch read port: `S[a]` for `a < BUFSZ`; outside the buffer refused (R36). Nothing else changes: a read
has no side effect (20_memory.md rule R32). -/
def readPort (c : Config) (a : Nat) (s : State) : Host.Outcome State Fault Refusal :=
  if a < c.bufsz then .next (s.setReceived (s.received ++ [s.mem.read a])) else .refused .readOutsideBuffer

/-- `rst` asserted between commands: every piece of the core's state at its reset value (R210). The host's side of the
ports is not the core's and stays (log 1, log 2). -/
def resetCore (s : State) : State := (State.reset.setPending s.pending).setReceived s.received

/-- One input of the host (R214): a command decodes or stops (R46, R217). -/
def fetchInput (c : Config) (h : HostInput) (s : State) : Fetched :=
  match h with
  | .reset => .action (.next (resetCore s))
  | .read a => .action (readPort c a.toNat s)
  | .command w payload =>
    match decodeCommand w payload with
    | .ok i => .instr i s
    | .error .reservedEncoding => .action (.refused .reservedEncoding)
    | .error .payloadLength => .action (.fault .payloadLength)

/-- A pending internal request is served first (R43); then the oldest input of the host is taken. -/
def fetch (c : Config) (s : State) : Fetched :=
  match s.creq with
  | some code => .instr (decodeRequest code) (s.setCreq none)
  | none =>
    match s.pending with
    | [] => .idle
    | h :: rest => fetchInput c h (s.setPending rest)

/-- An encoded instruction put where the next fetch takes it: a request on the internal line, a command in front of
what the host presents, with no request pending. -/
def present (e : Encoded) (s : State) : State :=
  match e with
  | .request code => s.setCreq (some code)
  | .command w payload => (s.setCreq none).setPending (.command w payload :: s.pending)

end Sys2Proof.Machine
end

