-- ==== Sys2Proof/Machine/Step.lean ====
section
/-! DEFINITION. One step: one whole command, atomically (00_scope.md rule R6), or one other action of the host between
commands, or nothing when nothing is presented (60_exceptions.md rule R204: the core is idle and everything survives). -/

namespace Sys2Proof.Machine

/-- One step of the core. -/
def step (s : State) : Host.Outcome State Fault Refusal :=
  match fetch Config.standard s with
  | .idle => .next s
  | .instr i t => exec i t
  | .action o => o

/-- `s` with the instruction whose `nbits` bits are `w` presented, so that the next step fetches and runs it (log 8). -/
def State.withFetchWord (s : State) (nbits w : Nat) : State := present (encodedOfTableWord nbits w) s

end Sys2Proof.Machine
end

