-- ==== Sys2Proof/Reference.lean ====
section
/-! DEFINITION. What the commands compute, written independently of the streaming machine, for the statements: the
one-shot Merkle-Damgard hash of a whole message (41_final.md rule R92), the byte-serial form of `UPDATE` (40_init_update.md
rule R74), the circular-register-file forms and unrolled schedules of the cores (R106, R122, R125, R142, R147, R166), and the
opcode map as a table of match and mask (30_encoding.md rule R45). Nothing here is called by `step`. -/

namespace Sys2Proof.Reference

open Sys2Proof.Machine

/-! ## The opcode map -/

/-- One row of R45 for a host command: `w` selects it when `w & mask = match`. -/
structure Row where
  pattern : Word
  mask : Word
  instr : List Byte → Instr

/-- The twelve host rows of R45. -/
def hostRows : List Row :=
  [⟨0x00000000#32, 0xFFFFFFFF#32, fun _ => .md5Init⟩,
   ⟨0x00000004#32, 0xFFFFFFFF#32, fun _ => .sha1Init⟩,
   ⟨0x00000008#32, 0xFFFFFFFF#32, fun _ => .sha256Init⟩,
   ⟨0x0000000C#32, 0xFFFFFFFF#32, fun _ => .rmd160Init⟩,
   ⟨0x00000001#32, 0x0000FFFF#32, .md5Update⟩,
   ⟨0x00000005#32, 0x0000FFFF#32, .sha1Update⟩,
   ⟨0x00000009#32, 0x0000FFFF#32, .sha256Update⟩,
   ⟨0x0000000D#32, 0x0000FFFF#32, .rmd160Update⟩,
   ⟨0x00000002#32, 0xFFFFFFFF#32, fun _ => .md5Final⟩,
   ⟨0x00000006#32, 0xFFFFFFFF#32, fun _ => .sha1Final⟩,
   ⟨0x0000000A#32, 0xFFFFFFFF#32, fun _ => .sha256Final⟩,
   ⟨0x0000000E#32, 0xFFFFFFFF#32, fun _ => .rmd160Final⟩]

/-- The command word selects the row. -/
def Row.selects (r : Row) (w : Word) : Bool := w &&& r.mask == r.pattern

/-! ## Messages, blocks, padding -/

/-- The initial words `IV[alg]` (R65 to R68). -/
def initialWords : Alg → Words
  | .md5 => ⟨0x67452301#32, 0xEFCDAB89#32, 0x98BADCFE#32, 0x10325476#32, 0, 0, 0, 0⟩
  | .sha1 => ⟨0x67452301#32, 0xEFCDAB89#32, 0x98BADCFE#32, 0x10325476#32, 0xC3D2E1F0#32, 0, 0, 0⟩
  | .sha256 => ⟨0x6A09E667#32, 0xBB67AE85#32, 0x3C6EF372#32, 0xA54FF53A#32,
      0x510E527F#32, 0x9B05688C#32, 0x1F83D9AB#32, 0x5BE0CD19#32⟩
  | .rmd160 => ⟨0x67452301#32, 0xEFCDAB89#32, 0x98BADCFE#32, 0x10325476#32, 0xC3D2E1F0#32, 0, 0, 0⟩

/-- The compression function of each algorithm, pure over `words` and sixteen message words (R14). -/
def blockFunction : Alg → Words → Sixteen → Words
  | .md5 => md5Block
  | .sha1 => sha1Block
  | .sha256 => sha256Block
  | .rmd160 => rmdBlock

/-- The sixteen message words of a block of bytes (R29 (a)). -/
def blockWords (order : WordOrder) (b : List Byte) : Sixteen :=
  sixteenOf fun i =>
    wordOf order (b.getD (4 * i) 0) (b.getD (4 * i + 1) 0) (b.getD (4 * i + 2) 0) (b.getD (4 * i + 3) 0)

/-- The first `n` 64-byte blocks of a byte sequence. -/
def blocks : Nat → List Byte → List (List Byte)
  | 0, _ => []
  | n + 1, d => d.take 64 :: blocks n (d.drop 64)

/-- `w` folded through the compression function over all the whole blocks of `d`, in order. -/
def foldMessage (alg : Alg) (w : Words) (d : List Byte) : Words :=
  (blocks (d.length / 64) d).foldl (fun w b => blockFunction alg w (blockWords (wordOrder alg) b)) w

/-- What of `d` follows its whole blocks. -/
def remainder (d : List Byte) : List Byte := d.drop (64 * (d.length / 64))

/-- `v` as `n` bytes, the least significant first. -/
def littleEndian : Nat → Nat → List Byte
  | 0, _ => []
  | n + 1, v => BitVec.ofNat 8 v :: littleEndian n (v / 256)

/-- `v` as `n` bytes, the most significant first. -/
def bigEndian (n v : Nat) : List Byte := (littleEndian n v).reverse

/-- The 8 length bytes: the bit length as one number, little-endian for MD5 and RIPEMD-160, big-endian for SHA-1 and
SHA-256 (R84). -/
def lengthField : Alg → Nat → List Byte
  | .md5, bits => littleEndian 8 bits
  | .sha1, bits => bigEndian 8 bits
  | .sha256, bits => bigEndian 8 bits
  | .rmd160, bits => littleEndian 8 bits

/-- The number of zero bytes of the padding of an `n`-byte message: the least `k` with `(n + 1 + k + 8) mod 64 = 0` (R92). -/
def padZeros (n : Nat) : Nat := (119 - n % 64) % 64

/-- The padding of an `n`-byte message: the marker, the zeros, the bit length (R92). -/
def padding (alg : Alg) (n : Nat) : List Byte :=
  0x80#8 :: List.replicate (padZeros n) 0#8 ++ lengthField alg (8 * n)

/-- The ASCII code of a hex digit, lowercase (R15). -/
def hexDigit (d : Nat) : Byte := BitVec.ofNat 8 (if d < 10 then 48 + d else 87 + d)

/-- Byte `j` of a word in the order the algorithm writes words (R29). -/
def byteOfWord : Alg → Word → Nat → Nat
  | .md5, v, j => v.toNat / 256 ^ j % 256
  | .sha1, v, j => v.toNat / 256 ^ (3 - j) % 256
  | .sha256, v, j => v.toNat / 256 ^ (3 - j) % 256
  | .rmd160, v, j => v.toNat / 256 ^ j % 256

/-- The words an algorithm uses, as a list: 4, 5, 8 or 5 of them (R5). -/
def usedWords : Alg → Words → List Word
  | .md5, w => [w.w0, w.w1, w.w2, w.w3]
  | .sha1, w => [w.w0, w.w1, w.w2, w.w3, w.w4]
  | .sha256, w => [w.w0, w.w1, w.w2, w.w3, w.w4, w.w5, w.w6, w.w7]
  | .rmd160, w => [w.w0, w.w1, w.w2, w.w3, w.w4]

/-- The digest field of the final words: eight lowercase hex characters a word, the high nibble of a byte first (R85, R86). -/
def digestText (alg : Alg) (w : Words) : List Byte :=
  (usedWords alg w).flatMap fun v =>
    (List.range 4).flatMap fun j => [hexDigit (byteOfWord alg v j / 16), hexDigit (byteOfWord alg v j % 16)]

/-- The digest field of a whole message (R92). -/
def hashText (alg : Alg) (message : List Byte) : List Byte :=
  digestText alg (foldMessage alg (initialWords alg) (message ++ padding alg message.length))

/-! ## The byte-serial form of `UPDATE` -/

/-- A single-byte absorption (R74). -/
def absorbByte (c : Config) (alg : Alg) (s : State) (b : Byte) : State :=
  let t := (countBytes s 1#32).setMem (s.mem.write (c.hdr + s.index) b)
  if s.index = 63 then compress c alg t else t

/-! ## Circular register files and unrolled schedules -/

/-- One register of a file written. -/
def putReg (reg : Nat → Word) (k : Nat) (v : Word) : Nat → Word := fun j => if j = k then v else reg j

/-- `words` read as a register file. -/
def regFile (w : Words) (i : Nat) : Word := (wordList w).getD i 0

/-- Step `s` of MD5's rotating window (R106). -/
def md5Ring (x : Sixteen) (reg : Nat → Word) (s : Nat) : Nat → Word :=
  let w := (4 - s % 4) % 4
  let a := reg w
  let b := reg ((w + 1) % 4)
  let c := reg ((w + 2) % 4)
  let d := reg ((w + 3) % 4)
  putReg reg w (b + rotl (a + md5F (s / 16) b c d + x.at (md5K s) + md5T s) (md5Rot s))

/-- SHA-1's unrolled schedule, the newest word first: sixteen message words, then `n` more by the recurrence (R122). -/
def sha1Words (x : Sixteen) : Nat → List Word
  | 0 => x.toList.reverse
  | n + 1 =>
    let l := sha1Words x n
    rotl (l.getD 2 0 ^^^ l.getD 7 0 ^^^ l.getD 13 0 ^^^ l.getD 15 0) 1 :: l

/-- Schedule word `w(s)` of SHA-1, for `s < 80` (R122). -/
def sha1Word (x : Sixteen) (s : Nat) : Word := (sha1Words x 64).getD (79 - s) 0

/-- Step `s` of SHA-1's rotating window (R125), with the schedule unrolled. -/
def sha1Ring (x : Sixteen) (reg : Nat → Word) (s : Nat) : Nat → Word :=
  let w := (5 - s % 5) % 5
  let a := reg w
  let b := reg ((w + 1) % 5)
  let c := reg ((w + 2) % 5)
  let d := reg ((w + 3) % 5)
  let e := reg ((w + 4) % 5)
  let t := rotl a 5 + sha1G (s / 20) b c d + e + sha1K (s / 20) + sha1Word x s
  putReg (putReg reg ((w + 4) % 5) t) ((w + 1) % 5) (rotr b 2)

/-- SHA-256's unrolled schedule, the newest word first, with the two small sigma functions written out (R142). -/
def sha256Words (x : Sixteen) : Nat → List Word
  | 0 => x.toList.reverse
  | n + 1 =>
    let l := sha256Words x n
    let x2 := l.getD 1 0
    let x15 := l.getD 14 0
    (l.getD 15 0 + (rotr x15 7 ^^^ rotr x15 18 ^^^ shr x15 3) + l.getD 6 0 + (rotr x2 17 ^^^ rotr x2 19 ^^^ shr x2 10)) :: l

/-- Schedule word `w(s)` of SHA-256, for `s < 64` (R142). -/
def sha256Word (x : Sixteen) (s : Nat) : Word := (sha256Words x 48).getD (63 - s) 0

/-- Step `s` of SHA-256's rotating window (R147), with the schedule unrolled and the rotation-XOR pair of R143 written out:
2, 13, 22 on `a` and 6, 11, 25 on `e`. -/
def sha256Ring (x : Sixteen) (reg : Nat → Word) (s : Nat) : Nat → Word :=
  let w := (8 - s % 8) % 8
  let r (k : Nat) : Word := reg ((w + k) % 8)
  let t1 := r 7 + (rotr (r 4) 6 ^^^ rotr (r 4) 11 ^^^ rotr (r 4) 25) + chooseF (r 4) (r 5) (r 6) + sha256K s + sha256Word x s
  let t2 := (rotr (r 0) 2 ^^^ rotr (r 0) 13 ^^^ rotr (r 0) 22) + majorityF (r 0) (r 1) (r 2)
  putReg (putReg reg ((w + 3) % 8) (r 3 + t1)) ((w + 7) % 8) (t1 + t2)

/-- Step `s` of one RIPEMD-160 lane's rotating window (R166): round function number, message index, constant and rotation
amount of the step are the lane's own. -/
def rmdRing (f : Nat) (m : Word) (k : Word) (rot : Nat) (reg : Nat → Word) (s : Nat) : Nat → Word :=
  let w := (5 - s % 5) % 5
  let a := reg w
  let b := reg ((w + 1) % 5)
  let c := reg ((w + 2) % 5)
  let d := reg ((w + 3) % 5)
  let e := reg ((w + 4) % 5)
  putReg (putReg reg w (rotl (a + rmdF f b c d + m + k) rot + e)) ((w + 2) % 5) (rotl c 10)

/-- The left lane's step. -/
def rmdRingLeft (x : Sixteen) (reg : Nat → Word) (s : Nat) : Nat → Word :=
  rmdRing (s / 16) (x.at (rmdRL (s / 16) (s % 16))) (rmdKL (s / 16)) (rmdSL (s / 16) (s % 16)) reg s

/-- The right lane's step. -/
def rmdRingRight (x : Sixteen) (reg : Nat → Word) (s : Nat) : Nat → Word :=
  rmdRing (4 - s / 16) (x.at (rmdRR (s / 16) (s % 16))) (rmdKR (s / 16)) (rmdSR (s / 16) (s % 16)) reg s

/-- A register file after steps `0 .. n - 1`. -/
def ringSteps (step : (Nat → Word) → Nat → (Nat → Word)) (n : Nat) (reg : Nat → Word) : Nat → Word :=
  (List.range n).foldl step reg

end Sys2Proof.Reference
end

