-- ==== Sys2Proof/Safety.lean ====
section
/-! DEFINITION. What the statements mean by a good state and a good run: the invariant of a command boundary (10_state.md
rule R22), the grammar of a run inside the contract (70_reset_and_hazards.md rule R212), and the relation of two states that
differ in residue only (R213). -/

namespace Sys2Proof.Safety

open Sys2Proof.Machine
open Sys2Proof.Reference

/-- The bytes of `S` that belong to the computation in progress: `B[0..index-1]` (R22 (b)). -/
def buffered (c : Config) (s : State) : List Byte := s.mem.readBytes c.hdr s.index

/-- The words an algorithm does not use are zero (R11, R65 to R68). -/
def upperZero (alg : Alg) (w : Words) : Prop :=
  match alg with
  | .md5 => w.w4 = 0 ∧ w.w5 = 0 ∧ w.w6 = 0 ∧ w.w7 = 0
  | .sha1 => w.w5 = 0 ∧ w.w6 = 0 ∧ w.w7 = 0
  | .sha256 => True
  | .rmd160 => w.w5 = 0 ∧ w.w6 = 0 ∧ w.w7 = 0

/-- `words[NW[alg]..7]` are the same in both (R64: a compression neither reads nor writes them). -/
def upperSame (alg : Alg) (w v : Words) : Prop :=
  match alg with
  | .md5 => w.w4 = v.w4 ∧ w.w5 = v.w5 ∧ w.w6 = v.w6 ∧ w.w7 = v.w7
  | .sha1 => w.w5 = v.w5 ∧ w.w6 = v.w6 ∧ w.w7 = v.w7
  | .sha256 => True
  | .rmd160 => w.w5 = v.w5 ∧ w.w6 = v.w6 ∧ w.w7 = v.w7

/-- The working registers with those of one core scrubbed (R64 (2)). -/
def scrubbed (alg : Alg) (k : Work) : Work :=
  match alg with
  | .md5 => { k with md5 := Md5Work.zero }
  | .sha1 => { k with sha1 := Sha1Work.zero }
  | .sha256 => { k with sha256 := Sha256Work.zero }
  | .rmd160 => { k with rmd160 := Rmd160Work.zero }

/-- A character of `0123456789abcdef`. -/
def isHexChar (b : Byte) : Prop := ∃ d : Nat, d < 16 ∧ b = hexDigit d

/-- `S` holds `n` hex characters and then zeros: a digest field, or with `n = 0` nothing (R22 (c), R93). -/
def holdsDigest (m : Memory) (n : Nat) : Prop := (∀ a, a < n → isHexChar (m.read a)) ∧ ∀ a, n ≤ a → m.read a = 0#8

/-- The invariant of a command boundary (R22), with the canonical form of the memory. -/
structure Boundary (s : State) : Prop where
  /-- the memory keeps its canonical form -/
  memWf : s.mem.wf
  /-- nothing is listed outside the 68 bytes of `S` -/
  memWithin : s.mem.within 68
  /-- R22 (a): the working registers are zero -/
  workZero : s.work = Work.zero
  /-- no internal request is left unserved (R43, R64) -/
  noRequest : s.creq = none
  /-- R22 (c): in `IDLE` the context is zero -/
  idleZero : s.phase = .idle → s.words = Words.zero ∧ s.countLo = 0 ∧ s.countHi = 0
  /-- R22 (c): in `IDLE` the buffer is all zero or a digest field followed by zeros -/
  idleBuffer : s.phase = .idle → ∃ n, (n = 0 ∨ n = 32 ∨ n = 40 ∨ n = 64) ∧ holdsDigest s.mem n
  /-- in `ACTIVE(a)` the words `a` does not use are zero (R65 to R68) -/
  activeUpper : ∀ a, s.phase = .active a → upperZero a s.words
  /-- in `ACTIVE(a)` the counter is within the ceiling (R62, R196) -/
  activeCount : ∀ a, s.phase = .active a → s.byteCount ≤ 2 ^ 53
  /-- R22 (d): once a compression has run, every byte outside `B[0..index-1]` is zero -/
  activeClean : ∀ a, s.phase = .active a → 64 ≤ s.byteCount → ∀ p, (p < 4 ∨ 4 + s.index ≤ p) → s.mem.read p = 0#8

/-- What the contract allows next: the phase and the byte count after an instruction of the host, or nothing (R60, R80). -/
def contractNext (p : Phase) (n : Nat) : Instr → Option (Phase × Nat)
  | .md5Init => some (.active .md5, 0)
  | .sha1Init => some (.active .sha1, 0)
  | .sha256Init => some (.active .sha256, 0)
  | .rmd160Init => some (.active .rmd160, 0)
  | .md5Update d => if p = .active .md5 ∧ n + d.length ≤ 2 ^ 53 then some (p, n + d.length) else none
  | .sha1Update d => if p = .active .sha1 ∧ n + d.length ≤ 2 ^ 53 then some (p, n + d.length) else none
  | .sha256Update d => if p = .active .sha256 ∧ n + d.length ≤ 2 ^ 53 then some (p, n + d.length) else none
  | .rmd160Update d => if p = .active .rmd160 ∧ n + d.length ≤ 2 ^ 53 then some (p, n + d.length) else none
  | .md5Final => if p = .active .md5 then some (.idle, 0) else none
  | .sha1Final => if p = .active .sha1 then some (.idle, 0) else none
  | .sha256Final => if p = .active .sha256 then some (.idle, 0) else none
  | .rmd160Final => if p = .active .rmd160 then some (.idle, 0) else none
  | .md5Compress => none
  | .sha1Compress => none
  | .sha256Compress => none
  | .rmd160Compress => none

/-- A list of host inputs that stays inside the contract from phase `p` and byte count `n`: the grammar of R212, with host
reads of `S` and resets allowed between any two commands. -/
def insideContract : Phase → Nat → List HostInput → Bool
  | _, _, [] => true
  | _, _, .reset :: rest => insideContract .idle 0 rest
  | p, n, .read a :: rest => decide (a.toNat < 68) && insideContract p n rest
  | p, n, .command w d :: rest =>
    match decodeCommand w d with
    | .error _ => false
    | .ok i =>
      match contractNext p n i with
      | none => false
      | some (q, m) => insideContract q m rest

/-- A host command as the host presents it: the word and the payload of its encoding (R54). A compression request is no
host command (R43). -/
def hostCommand (i : Instr) : List HostInput :=
  match encode i with
  | .command w payload => [.command w payload]
  | .request _ => []

/-- `INIT`, then one `UPDATE` a chunk (R212). -/
def openComputation (alg : Alg) (chunks : List (List Byte)) : List HostInput :=
  (.init alg :: chunks.map (.update alg)).flatMap hostCommand

/-- The script of one whole computation: `INIT`, one `UPDATE` a chunk, `FINAL` (R50, R212). -/
def computation (alg : Alg) (chunks : List (List Byte)) : List HostInput :=
  openComputation alg chunks ++ hostCommand (.final alg)

/-- Two states that agree on everything but bytes of `S` the current computation has not written (R213). -/
structure SameLive (s t : State) : Prop where
  words : s.words = t.words
  countLo : s.countLo = t.countLo
  countHi : s.countHi = t.countHi
  phase : s.phase = t.phase
  work : s.work = t.work
  creq : s.creq = t.creq
  live : ∀ i, i < s.index → s.mem.read (4 + i) = t.mem.read (4 + i)

end Sys2Proof.Safety
end

