-- ==== Sys2Proof/Certificates/Slice0/Obligations.lean ====
section
/-! DEFINITION. The statements for the provers, from the numbered rules of spec/. `B[i]` is the byte at address `4 + i`, and
the buffer has 68 bytes (00_scope.md rule R5). A statement that reads bytes after a write has the premise that the memory
is in its canonical form, which `StepKeepsMemoryCanonical` says every step keeps. -/

open Sys2Proof Sys2Proof.Machine Sys2Proof.Reference Sys2Proof.Safety

/-! ## Encoding and fetch -/

/-- Decoding the encoding of any well-formed instruction gives it back: every row, every payload up to 65535 bytes. -/
def Obligations.DecodeOfEncode : Prop :=
  ∀ i : Instr, i.wellFormed = true → decode (encode i) = .ok i

/-- Each instruction has one encoding only: what decodes to it is its encoding, and it is well formed. -/
def Obligations.EncodeOfDecode : Prop :=
  ∀ (e : Encoded) (i : Instr), decode e = .ok i → encode i = e ∧ i.wellFormed = true

/-- The opcode map of R45 as match and mask: a word that selects a row, with as many payload bytes as its bits 31:16 say,
decodes to that row's instruction; no word selects two rows; the four 2-bit codes select the four compressions. -/
def Obligations.OpcodeMapDecodes : Prop :=
  (∀ (w : Word) (payload : List Byte) (r : Row), r ∈ hostRows → r.selects w = true →
    payload.length = w.toNat / 2 ^ 16 → decodeCommand w payload = .ok (r.instr payload)) ∧
  hostRows.Pairwise (fun r q => ∀ w : Word, ¬(r.selects w = true ∧ q.selects w = true)) ∧
  decodeRequest 0#2 = .md5Compress ∧ decodeRequest 1#2 = .sha1Compress ∧
  decodeRequest 2#2 = .sha256Compress ∧ decodeRequest 3#2 = .rmd160Compress

/-- The words of V-E1 to V-E5 (V-E4 with any payload of 65535 bytes) and three more of their like, written out from R41,
R42, R43 and R45. -/
def Obligations.HandWrittenWordsDecode : Prop :=
  decodeCommand 0x00000000#32 [] = .ok .md5Init ∧
  decodeCommand 0x0000000C#32 [] = .ok .rmd160Init ∧
  decodeCommand 0x00030009#32 [0x61#8, 0x62#8, 0x63#8] = .ok (.sha256Update [0x61#8, 0x62#8, 0x63#8]) ∧
  (∀ data : List Byte, data.length = 65535 → decodeCommand 0xFFFF0001#32 data = .ok (.md5Update data)) ∧
  decodeCommand 0x0000000E#32 [] = .ok .rmd160Final ∧
  decodeCommand 0x00000005#32 [] = .ok (.sha1Update []) ∧
  decodeCommand 0x0000000A#32 [] = .ok .sha256Final ∧
  decodeRequest 2#2 = .sha256Compress

/-- A reserved word is one with `op = 3`, or with `rsv` not zero, or an `INIT` or `FINAL` word with `len` not zero; these are
exactly the words that select no row; every one is refused, whatever the state and the payload. All four values of the
format-K code are assigned. -/
def Obligations.ReservedWordsRefused : Prop :=
  (∀ w : Word, (∀ r, r ∈ hostRows → r.selects w = false) ↔
    (w.toNat % 4 = 3 ∨ w.toNat / 2 ^ 4 % 2 ^ 12 ≠ 0 ∨ ((w.toNat % 4 = 0 ∨ w.toNat % 4 = 2) ∧ w.toNat / 2 ^ 16 ≠ 0))) ∧
  (∀ (s : State) (w : Word) (payload : List Byte) (rest : List HostInput),
    s.creq = none → s.pending = .command w payload :: rest → (∀ r, r ∈ hostRows → r.selects w = false) →
      step s = .refused .reservedEncoding) ∧
  ∀ code : BitVec 2, ∃ alg, decodeRequest code = .compress alg ∧ algCode alg = code

/-- The step runs the decoded instruction: it takes the command from what the host presents and is `exec` of it. -/
def Obligations.StepRunsDecodedCommand : Prop :=
  ∀ (s : State) (w : Word) (payload : List Byte) (rest : List HostInput) (i : Instr),
    s.creq = none → s.pending = .command w payload :: rest → decodeCommand w payload = .ok i →
      step s = exec i { s with pending := rest }

/-- A request on the internal line is served by the core of its code, and the line is cleared (the line is the model's,
log 3). -/
def Obligations.StepServesRequest : Prop :=
  ∀ (s : State) (alg : Alg), s.creq = some (algCode alg) → step s = exec (.compress alg) { s with creq := none }

/-- A command whose payload length is not its `len` field is rejected as ill-formed input, not refused (log 6). -/
def Obligations.WrongPayloadLengthRejected : Prop :=
  ∀ (s : State) (w : Word) (payload : List Byte) (rest : List HostInput) (r : Row),
    s.creq = none → s.pending = .command w payload :: rest → r ∈ hostRows → r.selects w = true →
      payload.length ≠ w.toNat / 2 ^ 16 → step s = .fault .payloadLength

/-- The read port: inside the buffer the host gets the byte and nothing else changes; outside it is refused. -/
def Obligations.HostReadPort : Prop :=
  ∀ (s : State) (a : BitVec 7) (rest : List HostInput), s.creq = none → s.pending = .read a :: rest →
    (a.toNat < 68 → step s = .next { s with pending := rest, received := s.received ++ [s.mem.read a.toNat] }) ∧
    (68 ≤ a.toNat → step s = .refused .readOutsideBuffer)

/-- With nothing presented the core is idle and everything survives (that idleness is a step is the model's, log 14). -/
def Obligations.IdleStepKeepsState : Prop :=
  ∀ s : State, s.creq = none → s.pending = [] → step s = .next s

/-! ## Reset -/

/-- The values of R21: words, counter, every byte of the buffer and all working registers zero, `phase` IDLE, and the hex
ROM with its contents. -/
def Obligations.ResetValues : Prop :=
  State.reset.words = ⟨0, 0, 0, 0, 0, 0, 0, 0⟩ ∧ State.reset.countLo = 0 ∧ State.reset.countHi = 0 ∧
  (∀ a, State.reset.mem.read a = 0#8) ∧ State.reset.phase = .idle ∧
  State.reset.work.md5 = ⟨0, 0, 0, 0, 0, 0, Vector.replicate 16 0⟩ ∧
  State.reset.work.sha1 = ⟨0, 0, 0, 0, 0, 0, Vector.replicate 16 0⟩ ∧
  State.reset.work.sha256 = ⟨0, 0, 0, 0, 0, 0, 0, 0, 0, 0, Vector.replicate 16 0⟩ ∧
  State.reset.work.rmd160 = ⟨⟨0, 0, 0, 0, 0⟩, ⟨0, 0, 0, 0, 0⟩, 0, 0, Vector.replicate 16 0, ⟨0, 0, 0, 0, 0⟩,
    ⟨0, 0, 0, 0, 0⟩, ⟨0, 0, 0, 0, 0⟩⟩ ∧
  ∀ d : BitVec 4, hexChar d = hexDigit d.toNat

/-- Asserting `rst` between commands puts every piece of the core's state at its reset value, whatever it was. The host's
side stays (log 1, log 2). -/
def Obligations.ResetSignalRestores : Prop :=
  ∀ (s : State) (rest : List HostInput), s.creq = none → s.pending = .reset :: rest →
    step s = .next { State.reset with pending := rest, received := s.received }

/-! ## INIT -/

/-- `INIT` of each algorithm completes from every state: the words of R65 to R68 with the upper words zero, the counter
zero, `phase` ACTIVE, and everything else, `S` included, unchanged; its command word is the one the rule gives. -/
def Obligations.InitLoadsInitialWords : Prop :=
  (∀ s : State, exec .md5Init s = .next { s with
    words := ⟨0x67452301#32, 0xEFCDAB89#32, 0x98BADCFE#32, 0x10325476#32, 0, 0, 0, 0⟩
    countLo := 0, countHi := 0, phase := .active .md5 }) ∧
  (∀ s : State, exec .sha1Init s = .next { s with
    words := ⟨0x67452301#32, 0xEFCDAB89#32, 0x98BADCFE#32, 0x10325476#32, 0xC3D2E1F0#32, 0, 0, 0⟩
    countLo := 0, countHi := 0, phase := .active .sha1 }) ∧
  (∀ s : State, exec .sha256Init s = .next { s with
    words := ⟨0x6A09E667#32, 0xBB67AE85#32, 0x3C6EF372#32, 0xA54FF53A#32, 0x510E527F#32, 0x9B05688C#32, 0x1F83D9AB#32,
      0x5BE0CD19#32⟩
    countLo := 0, countHi := 0, phase := .active .sha256 }) ∧
  (∀ s : State, exec .rmd160Init s = .next { s with
    words := ⟨0x67452301#32, 0xEFCDAB89#32, 0x98BADCFE#32, 0x10325476#32, 0xC3D2E1F0#32, 0, 0, 0⟩
    countLo := 0, countHi := 0, phase := .active .rmd160 }) ∧
  encode .md5Init = .command 0x00000000#32 [] ∧ encode .sha1Init = .command 0x00000004#32 [] ∧
  encode .sha256Init = .command 0x00000008#32 [] ∧ encode .rmd160Init = .command 0x0000000C#32 []

/-! ## UPDATE -/

/-- `UPDATE` inside the contract completes: the words are the compression function folded over the whole 64-byte blocks
of what was buffered and the payload; the remainder is at the block start; without a compression the payload stands at
`B[index..]` and every other byte, the words and the working registers are as before; with one, every byte outside the
remainder is zero and the working registers of the core are scrubbed; the counter has grown by the payload's length; the
words the algorithm does not use, `phase`, and everything else are unchanged. -/
def Obligations.UpdateAbsorbs : Prop :=
  ∀ (alg : Alg) (data : List Byte) (s : State), s.mem.wf → s.phase = .active alg → data.length ≤ 65535 →
    s.byteCount + data.length ≤ 2 ^ 53 →
    ∃ t : State, exec (.update alg data) s = .next t ∧
      t.words = foldMessage alg s.words (buffered Config.standard s ++ data) ∧
      upperSame alg t.words s.words ∧
      t.index = (s.index + data.length) % 64 ∧
      buffered Config.standard t = remainder (buffered Config.standard s ++ data) ∧
      (s.index + data.length < 64 →
        (∀ i, i < data.length → t.mem.read (4 + s.index + i) = data.getD i 0) ∧
        (∀ p, (p < 4 + s.index ∨ 4 + s.index + data.length ≤ p) → t.mem.read p = s.mem.read p) ∧
        t.words = s.words ∧ t.work = s.work) ∧
      (64 ≤ s.index + data.length →
        (∀ p, p < 68 → (p < 4 ∨ 4 + t.index ≤ p) → t.mem.read p = 0#8) ∧ t.work = scrubbed alg s.work) ∧
      (∀ p, 68 ≤ p → t.mem.read p = s.mem.read p) ∧
      t.byteCount = s.byteCount + data.length ∧
      t.phase = s.phase ∧ t.creq = s.creq ∧ t.pending = s.pending ∧ t.received = s.received

/-- The byte counter's rule: the low half wraps, the high half takes the carry, and the 64-bit count is exact. -/
def Obligations.UpdateCountsBytes : Prop :=
  (∀ (hi lo len : Word), len.toNat ≤ 65535 →
    (addCount hi lo len).2 = lo + len ∧
    (addCount hi lo len).1 = (if 2 ^ 32 ≤ lo.toNat + len.toNat then hi + 1 else hi) ∧
    byteCountOf (addCount hi lo len).1 (addCount hi lo len).2 = (byteCountOf hi lo + len.toNat) % 2 ^ 64) ∧
  addCount 0#32 0xFFFFFFF0#32 32#32 = (1#32, 0x10#32) ∧
  ∀ (alg : Alg) (data : List Byte) (s : State), s.phase = .active alg → data.length ≤ 65535 →
    s.byteCount + data.length ≤ 2 ^ 53 →
    ∃ t : State, exec (.update alg data) s = .next t ∧
      (t.countHi, t.countLo) = addCount s.countHi s.countLo (BitVec.ofNat 32 data.length) ∧
      t.byteCount = s.byteCount + data.length ∧ t.countHi.toNat ≤ 0x00200000

/-- An `UPDATE` of no bytes inside the contract changes nothing at all. -/
def Obligations.EmptyUpdateChangesNothing : Prop :=
  ∀ (alg : Alg) (s : State), s.phase = .active alg → s.byteCount ≤ 2 ^ 53 → exec (.update alg []) s = .next s

/-- Chunking invariance of the whole state: two `UPDATE`s and one `UPDATE` of their concatenation, from any state inside
the contract, residue included. -/
def Obligations.ChunkingInvariance : Prop :=
  ∀ (alg : Alg) (d e : List Byte) (s : State), s.phase = .active alg → d.length + e.length ≤ 65535 →
    s.byteCount + (d.length + e.length) ≤ 2 ^ 53 →
    ∃ u t : State, exec (.update alg d) s = .next u ∧ exec (.update alg e) u = .next t ∧
      exec (.update alg (d ++ e)) s = .next t

/-- The byte-serial form: an `UPDATE` is its payload's bytes absorbed one at a time. -/
def Obligations.UpdateIsByteSerial : Prop :=
  ∀ (alg : Alg) (data : List Byte) (s : State), s.phase = .active alg → data.length ≤ 65535 →
    s.byteCount + data.length ≤ 2 ^ 53 →
      exec (.update alg data) s = .next (data.foldl (absorbByte Config.standard alg) s)

/-! ## FINAL -/

/-- `FINAL` inside the contract completes: the buffer holds the lowercase hex text of the words folded over the buffered
bytes and the padding of R92, at address 0, and zeros after it; the context is zero, `phase` is IDLE, the working registers
of the core are scrubbed, the host's side is unchanged. -/
def Obligations.FinalWritesDigest : Prop :=
  ∀ (alg : Alg) (s : State), s.mem.wf → s.phase = .active alg →
    ∃ t : State, exec (.final alg) s = .next t ∧
      (∀ p, p < 68 → t.mem.read p =
        (digestText alg (foldMessage alg s.words (buffered Config.standard s ++ padding alg s.byteCount))).getD p 0) ∧
      (∀ p, 68 ≤ p → t.mem.read p = s.mem.read p) ∧
      t.words = ⟨0, 0, 0, 0, 0, 0, 0, 0⟩ ∧ t.countLo = 0 ∧ t.countHi = 0 ∧ t.phase = .idle ∧
      t.work = scrubbed alg s.work ∧ t.creq = s.creq ∧ t.pending = s.pending ∧ t.received = s.received

/-- The padding is the least that fills the last block: fewer than 64 zeros, the padded length a multiple of 64, and one
block more than the whole blocks exactly when at most 55 bytes are left over. -/
def Obligations.PaddingFillsLastBlock : Prop :=
  (∀ n k, padZeros n ≤ k ↔ ∃ j, j ≤ k ∧ (n + 1 + j + 8) % 64 = 0) ∧
  ∀ (alg : Alg) (n : Nat), (padding alg n).length = padZeros n + 9 ∧
    (n + (padding alg n).length) % 64 = 0 ∧
    (n + (padding alg n).length) / 64 = n / 64 + (if n % 64 ≤ 55 then 1 else 2)

/-- Stage 1: the marker at `B[index]`, zeros to `B[63]`, nothing else. -/
def Obligations.MarkerAndZeroFill : Prop :=
  ∀ s : State, s.mem.wf →
    let t := padMarker Config.standard s
    t.mem.read (4 + s.index) = 0x80#8 ∧ (∀ i, s.index < i → i < 64 → t.mem.read (4 + i) = 0#8) ∧
    (∀ p, (p < 4 + s.index ∨ 68 ≤ p) → t.mem.read p = s.mem.read p) ∧ t = { s with mem := t.mem }

/-- Stage 3: the two halves become `8 * byteCount` modulo 2^64, nothing else changes, and inside the contract no bit is
lost; the three examples of the rule. -/
def Obligations.BytesBecomeBits : Prop :=
  (∀ s : State,
    countToBits s = { s with countHi := (s.countHi <<< 3) ||| (s.countLo >>> 29), countLo := s.countLo <<< 3 } ∧
    (countToBits s).byteCount = 8 * s.byteCount % 2 ^ 64 ∧
    (s.byteCount ≤ 2 ^ 53 → (countToBits s).byteCount = 8 * s.byteCount ∧ (countToBits s).byteCount ≤ 2 ^ 56)) ∧
  bitCount 0#32 3#32 = (0#32, 0x18#32) ∧ bitCount 1#32 0xE0000001#32 = (0x0F#32, 0x08#32) ∧
  bitCount 0x00200000#32 0#32 = (0x01000000#32, 0#32)

/-- Stage 4: `B[56..63]` holds the 64-bit number in the counter, little-endian for MD5 and RIPEMD-160, big-endian for SHA-1
and SHA-256; every other byte is as before. -/
def Obligations.LengthFieldBytes : Prop :=
  ∀ (alg : Alg) (s : State), s.mem.wf →
    let t := storeLength Config.standard alg s
    (∀ i, i < 8 → t.mem.read (60 + i) = (lengthField alg s.byteCount).getD i 0) ∧
    (∀ p, (p < 60 ∨ 68 ≤ p) → t.mem.read p = s.mem.read p) ∧ t = { s with mem := t.mem }

/-- Stages 6 and 7: two characters a raw byte of the digest, the high nibble first, from `S[0]`, each one of
`0123456789abcdef`; zeros to the end; then words and counter zero and `phase` IDLE, and nothing else changed. -/
def Obligations.HexExpansion : Prop :=
  ∀ (alg : Alg) (s : State), s.mem.wf →
    let t := emitDigest Config.standard alg s
    (∀ i, i < digestSize alg →
      t.mem.read (2 * i) = hexDigit (((rawDigest alg s.words).getD i 0).toNat / 16) ∧
      t.mem.read (2 * i + 1) = hexDigit (((rawDigest alg s.words).getD i 0).toNat % 16)) ∧
    (∀ p, p < 2 * digestSize alg → isHexChar (t.mem.read p)) ∧
    (∀ p, 2 * digestSize alg ≤ p → p < 68 → t.mem.read p = 0#8) ∧
    (rawDigest alg s.words).length = digestSize alg ∧
    t = { s with mem := t.mem, words := ⟨0, 0, 0, 0, 0, 0, 0, 0⟩, countLo := 0, countHi := 0, phase := .idle }

/-! ## COMPRESS -/

/-- `MD5.COMPRESS` completes from every state: `words[0..3]` are those of the rotating-window form of R106, the MD5 working
registers are zero, and nothing else changes. -/
def Obligations.Md5CompressIsRotatingWindow : Prop :=
  ∀ s : State, exec .md5Compress s = .next { s with
    words :=
      let x := sixteenOf fun i => s.mem.loadWord .le (4 + 4 * i)
      let reg := ringSteps (md5Ring x) 64 (regFile s.words)
      { s.words with w0 := s.words.w0 + reg 0, w1 := s.words.w1 + reg 1, w2 := s.words.w2 + reg 2, w3 := s.words.w3 + reg 3 }
    work := { s.work with md5 := Md5Work.zero } }

/-- `SHA1.COMPRESS` completes from every state: `words[0..4]` are those of the rotating-window form of R125 over the
unrolled schedule of R122, the SHA-1 working registers are zero, and nothing else changes. -/
def Obligations.Sha1CompressIsRotatingWindow : Prop :=
  ∀ s : State, exec .sha1Compress s = .next { s with
    words :=
      let x := sixteenOf fun i => s.mem.loadWord .be (4 + 4 * i)
      let reg := ringSteps (sha1Ring x) 80 (regFile s.words)
      { s.words with
        w0 := s.words.w0 + reg 0, w1 := s.words.w1 + reg 1, w2 := s.words.w2 + reg 2, w3 := s.words.w3 + reg 3
        w4 := s.words.w4 + reg 4 }
    work := { s.work with sha1 := Sha1Work.zero } }

/-- `SHA256.COMPRESS` completes from every state: `words[0..7]` are those of the rotating-window form of R147, with the
rotations of R143 written out, over the unrolled schedule of R142, the SHA-256 working registers are zero, and nothing else
changes. -/
def Obligations.Sha256CompressIsRotatingWindow : Prop :=
  ∀ s : State, exec .sha256Compress s = .next { s with
    words :=
      let x := sixteenOf fun i => s.mem.loadWord .be (4 + 4 * i)
      let reg := ringSteps (sha256Ring x) 64 (regFile s.words)
      ⟨s.words.w0 + reg 0, s.words.w1 + reg 1, s.words.w2 + reg 2, s.words.w3 + reg 3, s.words.w4 + reg 4,
        s.words.w5 + reg 5, s.words.w6 + reg 6, s.words.w7 + reg 7⟩
    work := { s.work with sha256 := Sha256Work.zero } }

/-- `RMD160.COMPRESS` completes from every state: `words[0..4]` are the combine of R167 over the two lanes' rotating-window
forms of R166, the RIPEMD-160 working registers are zero, and nothing else changes. -/
def Obligations.Rmd160CompressIsRotatingWindow : Prop :=
  ∀ s : State, exec .rmd160Compress s = .next { s with
    words :=
      let x := sixteenOf fun i => s.mem.loadWord .le (4 + 4 * i)
      let left := ringSteps (rmdRingLeft x) 80 (regFile s.words)
      let right := ringSteps (rmdRingRight x) 80 (regFile s.words)
      let new (i : Nat) : Word := regFile s.words ((i + 1) % 5) + left ((i + 2) % 5) + right ((i + 3) % 5)
      { s.words with w0 := new 0, w1 := new 1, w2 := new 2, w3 := new 3, w4 := new 4 }
    work := { s.work with rmd160 := Rmd160Work.zero } }

/-- SHA-1's schedule: the word step `s` uses is message word `s` below 16 and the recurrence of R122 from 16 on. -/
def Obligations.Sha1ScheduleRecurrence : Prop :=
  ∀ (w : Words) (x : Sixteen), ∃ u : Nat → Word,
    (∀ s, u s = (sha1Steps (s + 1) (sha1Load w x)).w.at s) ∧ (∀ s, s < 16 → u s = x.at s) ∧
    ∀ s, 16 ≤ s → s < 80 → u s = rotl (u (s - 3) ^^^ u (s - 8) ^^^ u (s - 14) ^^^ u (s - 16)) 1

/-- SHA-256's schedule: the word step `s` uses is message word `s` below 16 and the recurrence of R142 from 16 on, with the
two small sigma functions, each two rotations and a right shift. -/
def Obligations.Sha256ScheduleRecurrence : Prop :=
  ∀ (w : Words) (x : Sixteen), ∃ u : Nat → Word,
    (∀ s, u s = (sha256Steps (s + 1) (sha256Load w x)).w.at s) ∧ (∀ s, s < 16 → u s = x.at s) ∧
    ∀ s, 16 ≤ s → s < 64 → u s = u (s - 16) +
      (rotr (u (s - 15)) 7 ^^^ rotr (u (s - 15)) 18 ^^^ u (s - 15) >>> 3) + u (s - 7) +
      (rotr (u (s - 2)) 17 ^^^ rotr (u (s - 2)) 19 ^^^ u (s - 2) >>> 10)

/-- RIPEMD-160's index tables: the recurrence gives the ten rows R164 prints, each row a permutation of 0..15. -/
def Obligations.Rmd160IndexTables : Prop :=
  (List.range 5).map (fun j => (List.range 16).map (rmdRL j)) =
    [[0, 1, 2, 3, 4, 5, 6, 7, 8, 9, 10, 11, 12, 13, 14, 15], [7, 4, 13, 1, 10, 6, 15, 3, 12, 0, 9, 5, 2, 14, 11, 8],
     [3, 10, 14, 4, 9, 15, 8, 1, 2, 7, 0, 6, 13, 11, 5, 12], [1, 9, 11, 10, 0, 8, 12, 4, 13, 3, 7, 15, 14, 5, 6, 2],
     [4, 0, 5, 9, 7, 12, 2, 10, 14, 1, 3, 8, 11, 6, 15, 13]] ∧
  (List.range 5).map (fun j => (List.range 16).map (rmdRR j)) =
    [[5, 14, 7, 0, 9, 2, 11, 4, 13, 6, 15, 8, 1, 10, 3, 12], [6, 11, 3, 7, 0, 13, 5, 10, 14, 15, 8, 12, 4, 9, 1, 2],
     [15, 5, 1, 3, 7, 14, 6, 9, 11, 8, 12, 2, 10, 0, 4, 13], [8, 6, 4, 1, 3, 11, 15, 0, 5, 12, 2, 13, 9, 7, 10, 14],
     [12, 15, 10, 4, 1, 5, 8, 7, 6, 2, 13, 14, 0, 3, 9, 11]] ∧
  (∀ j, j < 5 → ∀ v, v < 16 → (∃ u, u < 16 ∧ rmdRL j u = v) ∧ ∃ u, u < 16 ∧ rmdRR j u = v) ∧
  (∀ j u, j < 4 → rmdRL (j + 1) u = rmdRho (rmdRL j u) ∧ rmdRR (j + 1) u = rmdRho (rmdRR j u))

/-- RIPEMD-160's rotation tables are one table `SW` seen through the two lanes' index tables (R165). -/
def Obligations.Rmd160RotationTables : Prop :=
  ∀ j, j < 5 → ∀ u, u < 16 →
    let sw : List (List Nat) :=
      [[11, 14, 15, 12, 5, 8, 7, 9, 11, 13, 14, 15, 6, 7, 9, 8], [12, 13, 11, 15, 6, 9, 9, 7, 12, 15, 11, 13, 7, 8, 7, 7],
       [13, 15, 14, 11, 7, 7, 6, 8, 13, 14, 13, 12, 5, 5, 6, 9], [14, 11, 12, 14, 8, 6, 5, 5, 15, 12, 15, 14, 9, 9, 8, 6],
       [15, 12, 13, 13, 9, 5, 8, 6, 14, 11, 12, 11, 8, 6, 5, 5]]
    rmdSL j u = (sw.getD j []).getD (rmdRL j u) 0 ∧ rmdSR j u = (sw.getD j []).getD (rmdRR j u) 0

/-- MD5's index permutation, rotation schedule and additive constants: the sequences R103 prints beside its formulas, R104's
rows, and the 64 literals of R105. -/
def Obligations.Md5IndexAndRotation : Prop :=
  (List.range 64).map md5K =
    [0, 1, 2, 3, 4, 5, 6, 7, 8, 9, 10, 11, 12, 13, 14, 15] ++ [1, 6, 11, 0, 5, 10, 15, 4, 9, 14, 3, 8, 13, 2, 7, 12] ++
    [5, 8, 11, 14, 1, 4, 7, 10, 13, 0, 3, 6, 9, 12, 15, 2] ++ [0, 7, 14, 5, 12, 3, 10, 1, 8, 15, 6, 13, 4, 11, 2, 9] ∧
  (∀ s, s < 64 → md5Rot s =
    ((if s / 16 = 0 then [7, 12, 17, 22] else if s / 16 = 1 then [5, 9, 14, 20] else if s / 16 = 2 then [4, 11, 16, 23]
      else [6, 10, 15, 21]) : List Nat).getD (s % 4) 0) ∧
  (List.range 64).map md5T =
    [0xd76aa478#32, 0xe8c7b756#32, 0x242070db#32, 0xc1bdceee#32, 0xf57c0faf#32, 0x4787c62a#32, 0xa8304613#32, 0xfd469501#32] ++
    [0x698098d8#32, 0x8b44f7af#32, 0xffff5bb1#32, 0x895cd7be#32, 0x6b901122#32, 0xfd987193#32, 0xa679438e#32, 0x49b40821#32] ++
    [0xf61e2562#32, 0xc040b340#32, 0x265e5a51#32, 0xe9b6c7aa#32, 0xd62f105d#32, 0x02441453#32, 0xd8a1e681#32, 0xe7d3fbc8#32] ++
    [0x21e1cde6#32, 0xc33707d6#32, 0xf4d50d87#32, 0x455a14ed#32, 0xa9e3e905#32, 0xfcefa3f8#32, 0x676f02d9#32, 0x8d2a4c8a#32] ++
    [0xfffa3942#32, 0x8771f681#32, 0x6d9d6122#32, 0xfde5380c#32, 0xa4beea44#32, 0x4bdecfa9#32, 0xf6bb4b60#32, 0xbebfbc70#32] ++
    [0x289b7ec6#32, 0xeaa127fa#32, 0xd4ef3085#32, 0x04881d05#32, 0xd9d4d039#32, 0xe6db99e5#32, 0x1fa27cf8#32, 0xc4ac5665#32] ++
    [0xf4292244#32, 0x432aff97#32, 0xab9423a7#32, 0xfc93a039#32, 0x655b59c3#32, 0x8f0ccc92#32, 0xffeff47d#32, 0x85845dd1#32] ++
    [0x6fa87e4f#32, 0xfe2ce6e0#32, 0xa3014314#32, 0x4e0811a1#32, 0xf7537e82#32, 0xbd3af235#32, 0x2ad7d2bb#32, 0xeb86d391#32]

/-- The round constants are the roots the rules name: `K1` are the integer parts of 2^30 times the square roots of 2, 3, 5,
10 (R124), `KL` and `KR` of 2^30 times square and cube roots of 2, 3, 5, 7 (R163). -/
def Obligations.RoundConstantsAreRoots : Prop :=
  (∀ r, r < 4 →
    let n := [2, 3, 5, 10].getD r 0
    (sha1K r).toNat ^ 2 ≤ n * 2 ^ 60 ∧ n * 2 ^ 60 < ((sha1K r).toNat + 1) ^ 2) ∧
  (∀ j, j < 4 →
    let n := [2, 3, 5, 7].getD j 0
    (rmdKL (j + 1)).toNat ^ 2 ≤ n * 2 ^ 60 ∧ n * 2 ^ 60 < ((rmdKL (j + 1)).toNat + 1) ^ 2 ∧
    (rmdKR j).toNat ^ 3 ≤ n * 2 ^ 90 ∧ n * 2 ^ 90 < ((rmdKR j).toNat + 1) ^ 3) ∧
  rmdKL 0 = 0 ∧ rmdKR 4 = 0

/-- `K2[s]` is the first 32 bits of the fractional part of the cube root of the prime number `s` of the first 64 (R145). -/
def Obligations.Sha256ConstantsAreCubeRoots : Prop :=
  let primes := (List.range 312).filter fun n => decide (2 ≤ n) && (List.range n).all fun d => decide (d < 2) || n % d != 0
  primes.length = 64 ∧ ∀ s, s < 64 →
    let n := primes.getD s 0
    ∃ q, q < 8 ∧ (q * 2 ^ 32 + (sha256K s).toNat) ^ 3 ≤ n * 2 ^ 96 ∧ n * 2 ^ 96 < (q * 2 ^ 32 + (sha256K s).toNat + 1) ^ 3

/-- `Compress(alg)` is the format-K request `creq = alg` served by the core of that code, and then the whole buffer zeroed.
Words and working registers are what the request left, every other field is as it was before, and so are the words the
algorithm does not use. Neither the counter nor those words are read: with any others in their place the used words, the
buffer and the working registers come out the same, and the others stay as they were. -/
def Obligations.CompressServesRequestThenZeroes : Prop :=
  ∀ (alg : Alg) (s : State), ∃ t : State, exec (decodeRequest (algCode alg)) s = .next t ∧
    (compress Config.standard alg s).words = t.words ∧ (compress Config.standard alg s).work = t.work ∧
    upperSame alg t.words s.words ∧ t.work = scrubbed alg s.work ∧
    (∀ p, p < 68 → (compress Config.standard alg s).mem.read p = 0#8) ∧
    (∀ p, 68 ≤ p → (compress Config.standard alg s).mem.read p = s.mem.read p) ∧
    compress Config.standard alg s =
      { s with words := t.words, work := t.work, mem := (compress Config.standard alg s).mem } ∧
    ∀ (hi lo : Word) (w : Words), usedWords alg w = usedWords alg s.words →
      let c := compress Config.standard alg { s with words := w, countHi := hi, countLo := lo }
      usedWords alg c.words = usedWords alg t.words ∧ upperSame alg c.words w ∧
      c = { compress Config.standard alg s with words := c.words, countHi := hi, countLo := lo }

/-- Purity: what a compression leaves in the words its algorithm uses depends on those words and the block region only. -/
def Obligations.CompressionIsPure : Prop :=
  ∀ (alg : Alg) (s t : State), usedWords alg s.words = usedWords alg t.words →
    (∀ i, i < 64 → s.mem.read (4 + i) = t.mem.read (4 + i)) →
    ∃ u v : State, exec (.compress alg) s = .next u ∧ exec (.compress alg) t = .next v ∧
      usedWords alg u.words = usedWords alg v.words

/-! ## The contract -/

/-- `UPDATE` and `FINAL` of every algorithm are refused with `NoComputation` in `IDLE`. -/
def Obligations.RefusedWithoutComputation : Prop :=
  ∀ (alg : Alg) (data : List Byte) (s : State), s.phase = .idle →
    exec (.update alg data) s = .refused .noComputation ∧ exec (.final alg) s = .refused .noComputation

/-- `UPDATE` and `FINAL` of another algorithm than the one in progress are refused with `AlgorithmMismatch`. -/
def Obligations.RefusedForOtherAlgorithm : Prop :=
  ∀ (alg other : Alg) (data : List Byte) (s : State), s.phase = .active other → other ≠ alg →
    exec (.update alg data) s = .refused .algorithmMismatch ∧ exec (.final alg) s = .refused .algorithmMismatch

/-- The ceiling: an `UPDATE` of the algorithm in progress is refused with `ByteCeiling` when the total would exceed 2^53
bytes, and completes when it would not, exactly 2^53 included. -/
def Obligations.ByteCeilingIsExact : Prop :=
  ∀ (alg : Alg) (data : List Byte) (s : State), s.phase = .active alg →
    (2 ^ 53 < s.byteCount + data.length → exec (.update alg data) s = .refused .byteCeiling) ∧
    (s.byteCount + data.length ≤ 2 ^ 53 → ∃ t, exec (.update alg data) s = .next t)

/-- No reason but the four of R193 and no fault: a host command completes exactly when the contract allows it, and the
phase afterwards is the one the contract says. -/
def Obligations.ContractDecidesCompletion : Prop :=
  ∀ (i : Instr) (s : State), (∀ alg, i ≠ .compress alg) →
    (∃ t, exec i s = .next t ∧ ∃ n, contractNext s.phase s.byteCount i = some (t.phase, n)) ∨
    (contractNext s.phase s.byteCount i = none ∧
      (exec i s = .refused .noComputation ∨ exec i s = .refused .algorithmMismatch ∨ exec i s = .refused .byteCeiling))

/-- Who changes `phase`: `INIT` of `a` sets ACTIVE(a) from any phase, `FINAL` sets IDLE, no other instruction changes it. -/
def Obligations.PhaseChanges : Prop :=
  ∀ (i : Instr) (s t : State), exec i s = .next t →
    (∀ alg, i = .init alg → t.phase = .active alg) ∧ (∀ alg, i = .final alg → t.phase = .idle) ∧
    ((∀ alg, i ≠ .init alg) → (∀ alg, i ≠ .final alg) → t.phase = s.phase)

/-- No instruction touches the host's side of the ports or raises the request line. -/
def Obligations.InstructionsLeaveHostSide : Prop :=
  ∀ (i : Instr) (s t : State), exec i s = .next t →
    t.pending = s.pending ∧ t.received = s.received ∧ t.creq = s.creq

/-! ## Whole machine -/

/-- Every step from every state keeps the memory in its canonical form and inside the 68 bytes of the buffer. -/
def Obligations.StepKeepsMemoryCanonical : Prop :=
  ∀ s t : State, s.mem.wf → s.mem.within 68 → step s = .next t → t.mem.wf ∧ t.mem.within 68

/-- The invariant of a command boundary holds after reset. -/
def Obligations.ResetIsBoundary : Prop := Boundary State.reset

/-- Every step keeps the invariant of a command boundary. -/
def Obligations.StepKeepsBoundary : Prop :=
  ∀ s t : State, Boundary s → step s = .next t → Boundary t

/-- A run inside the contract never stops, and a run that leaves it stops: from every state with no request pending, the
list of what the host presents runs to its end exactly when it follows the grammar of R212. -/
def Obligations.RunsToEndExactlyInsideContract : Prop :=
  ∀ s : State, s.creq = none →
    (insideContract s.phase s.byteCount s.pending = true ↔
      ∃ t, Sys2Proof.core.run s.pending.length s = .next t)

/-- What an open computation holds, from every state with a canonical memory, residue included: after `INIT` and any
chunks within the ceiling, the counter is the number of payload bytes, the words are the initial words folded over the whole
blocks of the payload, and the buffered bytes are what follows them. -/
def Obligations.OpenComputationHolds : Prop :=
  ∀ (alg : Alg) (chunks : List (List Byte)) (rest : List HostInput) (s : State), s.mem.wf → s.creq = none →
    s.pending = openComputation alg chunks ++ rest → (∀ d, d ∈ chunks → d.length ≤ 65535) → chunks.flatten.length ≤ 2 ^ 53 →
    ∃ t : State, Sys2Proof.core.run (chunks.length + 1) s = .next t ∧
      t.byteCount = chunks.flatten.length ∧ t.words = foldMessage alg (initialWords alg) chunks.flatten ∧
      buffered Config.standard t = remainder chunks.flatten ∧ t.index = chunks.flatten.length % 64 ∧
      t.phase = .active alg ∧ t.pending = rest

/-- What a whole computation computes: from every state with a canonical memory, `INIT`, any chunks within the ceiling and
`FINAL` run to the end and leave at address 0 the hash text of the concatenated payload, zeros after it, and a zero
context. No residue reaches the digest. -/
def Obligations.WholeComputationHashesMessage : Prop :=
  ∀ (alg : Alg) (chunks : List (List Byte)) (rest : List HostInput) (s : State), s.mem.wf → s.creq = none →
    s.pending = computation alg chunks ++ rest → (∀ d, d ∈ chunks → d.length ≤ 65535) → chunks.flatten.length ≤ 2 ^ 53 →
    ∃ t : State, Sys2Proof.core.run (chunks.length + 2) s = .next t ∧
      (∀ p, p < 68 → t.mem.read p = (hashText alg chunks.flatten).getD p 0) ∧
      t.words = ⟨0, 0, 0, 0, 0, 0, 0, 0⟩ ∧ t.countLo = 0 ∧ t.countHi = 0 ∧ t.phase = .idle ∧ t.pending = rest ∧
      t.received = s.received

/-- Residue is never read: two states that agree on everything but bytes of the buffer the current computation has not
written stop alike or go on to two states that agree in the same way, and after `FINAL` every byte of the buffer agrees. -/
def Obligations.ResidueDoesNotFlow : Prop :=
  ∀ (i : Instr) (s u : State), s.mem.wf → u.mem.wf → i.wellFormed = true → (∀ alg, i ≠ .compress alg) → SameLive s u →
    (∃ r, exec i s = .refused r ∧ exec i u = .refused r) ∨
    (∃ t v, exec i s = .next t ∧ exec i u = .next v ∧ SameLive t v ∧
      ((∃ alg, i = .final alg) → ∀ p, p < 68 → t.mem.read p = v.mem.read p))

/-- The digest does not depend on the header size: for every configuration with the standard order of the length words,
whatever `HDR`, the buffer after `INIT`, `Absorb` and `Finalize` holds the hash text of the payload. -/
def Obligations.DigestIndependentOfHeader : Prop :=
  ∀ (c : Config) (alg : Alg) (data : List Byte) (s : State), c.standardOrder → s.mem.wf → data.length ≤ 65535 →
    ∀ p, p < c.bufsz →
      (finalize c alg (absorb c alg data (beginWith alg (initialWords alg) s))).mem.read p =
        (hashText alg data).getD p 0

/-! ## Memory and word primitives -/

/-- `LoadWord` and `StoreWord`: the numbers and the bytes R27 and R28 give, and a load after a store at the same address
gives the word stored, at any address. -/
def Obligations.WordViewLoadAfterStore : Prop :=
  (∀ b0 b1 b2 b3 : Byte,
    (wordOf .le b0 b1 b2 b3).toNat = b0.toNat + b1.toNat * 2 ^ 8 + b2.toNat * 2 ^ 16 + b3.toNat * 2 ^ 24 ∧
    (wordOf .be b0 b1 b2 b3).toNat = b3.toNat + b2.toNat * 2 ^ 8 + b1.toNat * 2 ^ 16 + b0.toNat * 2 ^ 24) ∧
  ∀ (m : Memory) (order : WordOrder) (a : Nat) (v : Word), m.wf →
    (m.storeWord order a v).loadWord order a = v ∧
    (∀ j, j < 4 → ((m.storeWord order a v).read (a + j)).toNat =
      v.toNat / 256 ^ (match order with | .le => j | .be => 3 - j) % 256) ∧
    m.loadWord order a = wordOf order (m.read a) (m.read (a + 1)) (m.read (a + 2)) (m.read (a + 3)) ∧
    ∀ p, (p < a ∨ a + 4 ≤ p) → (m.storeWord order a v).read p = m.read p

/-- The scratch buffer's laws: a byte written reads back, every other byte stays, the zero fill zeroes its range and
nothing else, and two canonical memories that read alike are equal data. -/
def Obligations.MemoryLaws : Prop :=
  (∀ (m : Memory) (a : Nat) (b : Byte), m.wf → (m.write a b).wf ∧ (m.write a b).read a = b ∧
    ∀ p, p ≠ a → (m.write a b).read p = m.read p) ∧
  (∀ (m : Memory) (lo n p : Nat), (m.zeroFill lo n).read p = if lo ≤ p ∧ p < lo + n then 0#8 else m.read p) ∧
  ∀ m k : Memory, m.wf → k.wf → (∀ p, m.read p = k.read p) → m = k

/-- The rotates and shifts of R8 as numbers, and a right rotate undoes a left rotate; every amount a table gives is in
1..30. -/
def Obligations.RotatesAndShifts : Prop :=
  (∀ (x : Word) (n : Nat), 0 < n → n < 32 →
    (rotl x n).toNat = x.toNat * 2 ^ n % 2 ^ 32 + x.toNat / 2 ^ (32 - n) ∧
    rotr x n = rotl x (32 - n) ∧ rotr (rotl x n) n = x ∧ rotl (rotr x n) n = x ∧
    (shr x n).toNat = x.toNat / 2 ^ n ∧ (shl x n).toNat = x.toNat * 2 ^ n % 2 ^ 32) ∧
  (∀ s, s < 64 → 1 ≤ md5Rot s ∧ md5Rot s ≤ 30) ∧
  ∀ j u, j < 5 → u < 16 → 1 ≤ rmdSL j u ∧ rmdSL j u ≤ 30 ∧ 1 ≤ rmdSR j u ∧ rmdSR j u ≤ 30

/-- Choose, parity and majority, and with `^` or `+` in place of `|` the same in choose, with `^` the same in majority. -/
def Obligations.ChooseAndMajorityForms : Prop :=
  ∀ x y z : Word,
    chooseF x y z = (x &&& y) ||| (~~~x &&& z) ∧ parityF x y z = x ^^^ y ^^^ z ∧
    majorityF x y z = (x &&& y) ||| (x &&& z) ||| (y &&& z) ∧
    chooseF x y z = (x &&& y) ^^^ (~~~x &&& z) ∧ chooseF x y z = (x &&& y) + (~~~x &&& z) ∧
    majorityF x y z = (x &&& y) ^^^ (x &&& z) ^^^ (y &&& z) ∧
    sha256Ch x y z = chooseF x y z ∧ sha256Maj x y z = majorityF x y z

/-- The round functions bit by bit: MD5's four (R102), SHA-1's four (R123), RIPEMD-160's five (R162). -/
def Obligations.RoundFunctionBits : Prop :=
  ∀ (x y z : Word) (i : Nat), i < 32 →
    let a := x.getLsbD i
    let b := y.getLsbD i
    let c := z.getLsbD i
    let choose := if a then b else c
    let chooseByLast := if c then a else b
    let parity := (a != b) != c
    let majority := if a = b then a else c
    (md5F 0 x y z).getLsbD i = choose ∧ (md5F 1 x y z).getLsbD i = chooseByLast ∧ (md5F 2 x y z).getLsbD i = parity ∧
    (md5F 3 x y z).getLsbD i = (b != (a || !c)) ∧
    (sha1G 0 x y z).getLsbD i = choose ∧ (sha1G 1 x y z).getLsbD i = parity ∧ (sha1G 2 x y z).getLsbD i = majority ∧
    (sha1G 3 x y z).getLsbD i = parity ∧
    (rmdF 0 x y z).getLsbD i = parity ∧ (rmdF 1 x y z).getLsbD i = choose ∧
    (rmdF 2 x y z).getLsbD i = ((a || !b) != c) ∧ (rmdF 3 x y z).getLsbD i = chooseByLast ∧
    (rmdF 4 x y z).getLsbD i = (a != (b || !c))
end

