-- ==== Sys2Proof/Laws/Memory.lean ====
section
/-! SUPPORT. The laws of the scratch buffer: what a byte reads as after each operation, and that every operation keeps the
canonical form and the bound. -/

namespace Sys2Proof.Machine

/-- Every listed address is above `k`. -/
abbrev Memory.above (m : Memory) (k : Nat) : Prop := ∀ p ∈ m, k < p.1

theorem read_nil (p : Nat) : Memory.read [] p = 0#8 := rfl

theorem read_cons (k : Nat) (v : Byte) (m : Memory) (p : Nat) :
    Memory.read ((k, v) :: m) p = if k = p then v else Memory.read m p := rfl

theorem wf_nil : Memory.wf [] := ⟨List.Pairwise.nil, by simp⟩

theorem wf_cons {k : Nat} {v : Byte} {m : Memory} :
    Memory.wf ((k, v) :: m) ↔ v ≠ 0#8 ∧ Memory.above m k ∧ Memory.wf m := by
  simp only [Memory.wf, Memory.above, List.pairwise_cons, List.forall_mem_cons]
  tauto

/-- A byte below every listed address reads as 0x00. -/
theorem read_of_above {m : Memory} {k p : Nat} (h : m.above k) (hp : p ≤ k) : m.read p = 0#8 := by
  induction m with
  | nil => rfl
  | cons q m ih =>
    obtain ⟨j, v⟩ := q
    have hj : k < j := h (j, v) (by simp)
    rw [read_cons, if_neg (by omega)]
    exact ih fun r hr => h r (by simp [hr])

/-- A byte outside the listed range reads as 0x00. -/
theorem read_of_within {m : Memory} {n p : Nat} (h : m.within n) (hp : n ≤ p) : m.read p = 0#8 := by
  induction m with
  | nil => rfl
  | cons q m ih =>
    obtain ⟨j, v⟩ := q
    have hj : j < n := h (j, v) (by simp)
    rw [read_cons, if_neg (by omega)]
    exact ih fun r hr => h r (by simp [hr])

theorem write_above {m : Memory} {k a : Nat} {b : Byte} (h : m.above k) (ha : k < a) : (m.write a b).above k := by
  induction m with
  | nil =>
    simp only [Memory.write]
    split <;> simp [Memory.above, ha]
  | cons q m ih =>
    obtain ⟨j, v⟩ := q
    have hj : k < j := h (j, v) (by simp)
    have hm : Memory.above m k := fun r hr => h r (by simp [hr])
    simp only [Memory.write]
    split
    · split
      · exact h
      · rintro r hr
        rcases List.mem_cons.1 hr with rfl | hr
        · exact ha
        · exact h r hr
    · split
      · split
        · exact hm
        · rintro r hr
          rcases List.mem_cons.1 hr with rfl | hr
          · exact ha
          · exact hm r hr
      · rintro r hr
        rcases List.mem_cons.1 hr with rfl | hr
        · exact hj
        · exact ih hm r hr

/-- A write keeps the canonical form. -/
theorem write_wf {m : Memory} (h : m.wf) (a : Nat) (b : Byte) : (m.write a b).wf := by
  induction m with
  | nil =>
    simp only [Memory.write]
    split
    · exact wf_nil
    · exact wf_cons.2 ⟨‹_›, by simp [Memory.above], wf_nil⟩
  | cons q m ih =>
    obtain ⟨j, v⟩ := q
    obtain ⟨hv, hj, hm⟩ := wf_cons.1 h
    simp only [Memory.write]
    split
    · split
      · exact h
      · refine wf_cons.2 ⟨‹_›, fun r hr => ?_, h⟩
        rcases List.mem_cons.1 hr with rfl | hr
        · assumption
        · exact lt_trans (by assumption) (hj r hr)
    · split
      · subst a
        split
        · exact hm
        · exact wf_cons.2 ⟨‹_›, hj, hm⟩
      · exact wf_cons.2 ⟨hv, write_above hj (by omega), ih hm⟩

/-- A write lists no address outside the bound. -/
theorem write_within {m : Memory} {n a : Nat} (h : m.within n) (ha : a < n) (b : Byte) : (m.write a b).within n := by
  induction m with
  | nil =>
    simp only [Memory.write]
    split <;> simp [Memory.within, ha]
  | cons q m ih =>
    obtain ⟨j, v⟩ := q
    have hj : j < n := h (j, v) (by simp)
    have hm : Memory.within m n := fun r hr => h r (by simp [hr])
    simp only [Memory.write]
    split
    · split
      · exact h
      · rintro r hr
        rcases List.mem_cons.1 hr with rfl | hr
        · exact ha
        · exact h r hr
    · split
      · split
        · exact hm
        · rintro r hr
          rcases List.mem_cons.1 hr with rfl | hr
          · exact ha
          · exact hm r hr
      · rintro r hr
        rcases List.mem_cons.1 hr with rfl | hr
        · exact hj
        · exact ih hm r hr

/-- Read after write: the byte written, and every other byte as before. -/
theorem read_write {m : Memory} (h : m.wf) (a : Nat) (b : Byte) (p : Nat) :
    (m.write a b).read p = if p = a then b else m.read p := by
  induction m with
  | nil =>
    simp only [Memory.write]
    split
    · subst b; simp [read_nil]
    · rw [read_cons, read_nil]
      by_cases hp : p = a
      · simp [hp]
      · rw [if_neg (by omega), if_neg hp]
  | cons q m ih =>
    obtain ⟨j, v⟩ := q
    obtain ⟨hv, hj, hm⟩ := wf_cons.1 h
    simp only [Memory.write]
    split
    · rename_i haj
      split
      · subst b
        split
        · subst p
          rw [read_cons, if_neg (by omega), read_of_above hj (by omega)]
        · rfl
      · rw [read_cons]
        by_cases hpa : p = a
        · simp [hpa]
        · rw [if_neg (by omega), if_neg hpa]
    · split
      · rename_i haj
        subst a
        split
        · subst b
          split
          · subst p
            rw [read_of_above hj (le_refl _)]
          · rw [read_cons, if_neg (by omega)]
        · rw [read_cons, read_cons]
          by_cases hpa : p = j
          · simp [hpa]
          · rw [if_neg (by omega), if_neg (by omega), if_neg (by omega)]
      · rename_i h1 h2
        rw [read_cons, read_cons, ih hm]
        by_cases hpj : j = p
        · rw [if_pos hpj, if_neg (by omega), if_pos hpj]
        · rw [if_neg hpj, if_neg hpj]

theorem writeBytes_nil (m : Memory) (a : Nat) : m.writeBytes a [] = m := rfl

theorem writeBytes_cons (m : Memory) (a : Nat) (b : Byte) (l : List Byte) :
    m.writeBytes a (b :: l) = (m.write a b).writeBytes (a + 1) l := rfl

/-- Two runs of bytes written one after the other are one run. -/
theorem writeBytes_append (m : Memory) (a : Nat) (l k : List Byte) :
    m.writeBytes a (l ++ k) = (m.writeBytes a l).writeBytes (a + l.length) k := by
  induction l generalizing m a with
  | nil => rfl
  | cons b l ih =>
    rw [List.cons_append, writeBytes_cons, ih, writeBytes_cons, List.length_cons]
    congr 1
    omega

theorem writeBytes_wf {m : Memory} (h : m.wf) (a : Nat) (l : List Byte) : (m.writeBytes a l).wf := by
  induction l generalizing m a with
  | nil => exact h
  | cons b l ih => exact ih (write_wf h a b) (a + 1)

theorem writeBytes_within {m : Memory} {n a : Nat} (h : m.within n) (l : List Byte) (ha : a + l.length ≤ n) :
    (m.writeBytes a l).within n := by
  induction l generalizing m a with
  | nil => exact h
  | cons b l ih =>
    rw [List.length_cons] at ha
    exact ih (write_within h (by omega) b) (by omega)

/-- Read after a run of bytes is written. -/
theorem read_writeBytes {m : Memory} (h : m.wf) (a : Nat) (l : List Byte) (p : Nat) :
    (m.writeBytes a l).read p = if a ≤ p ∧ p < a + l.length then l.getD (p - a) 0 else m.read p := by
  induction l generalizing m a with
  | nil => rw [writeBytes_nil, if_neg (by simp)]
  | cons b l ih =>
    rw [writeBytes_cons, ih (write_wf h a b), read_write h, List.length_cons]
    by_cases hp : p = a
    · subst p
      rw [if_neg (by omega), if_pos rfl, if_pos (by omega), Nat.sub_self, List.getD_cons_zero]
    · by_cases hq : a + 1 ≤ p ∧ p < a + 1 + l.length
      · rw [if_pos hq, if_pos (by omega), show p - a = (p - (a + 1)) + 1 by omega, List.getD_cons_succ]
      · rw [if_neg hq, if_neg hp, if_neg (by omega)]

theorem zeroFill_wf {m : Memory} (h : m.wf) (lo n : Nat) : (m.zeroFill lo n).wf :=
  ⟨h.1.filter _, fun p hp => h.2 p (List.mem_filter.1 hp).1⟩

theorem zeroFill_within {m : Memory} {k : Nat} (h : m.within k) (lo n : Nat) : (m.zeroFill lo n).within k :=
  fun p hp => h p (List.mem_filter.1 hp).1

/-- Read after a zero fill. -/
theorem read_zeroFill (m : Memory) (lo n p : Nat) :
    (m.zeroFill lo n).read p = if lo ≤ p ∧ p < lo + n then 0#8 else m.read p := by
  induction m with
  | nil => simp [Memory.zeroFill, read_nil]
  | cons q m ih =>
    obtain ⟨j, v⟩ := q
    simp only [Memory.zeroFill] at ih ⊢
    rw [List.filter_cons]
    split
    · rename_i hj
      rw [read_cons, ih, read_cons]
      simp only [Bool.not_eq_true', Bool.and_eq_false_iff, decide_eq_false_iff_not] at hj
      by_cases hp : j = p
      · subst p
        rw [if_pos rfl, if_pos rfl, if_neg (by omega)]
      · simp [hp]
    · rename_i hj
      rw [ih, read_cons]
      simp only [Bool.not_eq_true', Bool.and_eq_false_iff, decide_eq_false_iff_not, not_or, not_not] at hj
      by_cases hp : j = p
      · subst p
        rw [if_pos hj, if_pos hj]
      · simp [hp]

/-- Zeroing the whole of a bounded memory lists nothing. -/
theorem zeroFill_all {m : Memory} {n : Nat} (h : m.within n) : m.zeroFill 0 n = [] := by
  apply List.filter_eq_nil_iff.2
  intro p hp
  have := h p hp
  simp [this]

theorem readBytes_length (m : Memory) (a n : Nat) : (m.readBytes a n).length = n := by simp [Memory.readBytes]

theorem readBytes_getD (m : Memory) (a n i : Nat) (h : i < n) : (m.readBytes a n).getD i 0 = m.read (a + i) := by
  simp [Memory.readBytes, h]

/-- Two canonical memories that read alike are equal data. -/
theorem memory_ext {m k : Memory} (hm : m.wf) (hk : k.wf) (h : ∀ p, m.read p = k.read p) : m = k := by
  induction m generalizing k with
  | nil =>
    cases k with
    | nil => rfl
    | cons q k =>
      obtain ⟨j, v⟩ := q
      have := h j
      rw [read_nil, read_cons, if_pos rfl] at this
      exact absurd this.symm (wf_cons.1 hk).1
  | cons q m ih =>
    obtain ⟨i, u⟩ := q
    obtain ⟨hu, hi, hm'⟩ := wf_cons.1 hm
    cases k with
    | nil =>
      have := h i
      rw [read_nil, read_cons, if_pos rfl] at this
      exact absurd this hu
    | cons r k =>
      obtain ⟨j, v⟩ := r
      obtain ⟨hv, hj, hk'⟩ := wf_cons.1 hk
      have hij : i = j := by
        by_contra hne
        rcases Nat.lt_or_gt_of_ne hne with hlt | hlt
        · have := h i
          rw [read_cons, if_pos rfl, read_cons, if_neg (by omega), read_of_above hj (by omega)] at this
          exact hu this
        · have := h j
          rw [read_cons, if_neg (by omega), read_of_above hi (by omega), read_cons, if_pos rfl] at this
          exact hv this.symm
      subst j
      have huv : u = v := by
        have := h i
        rwa [read_cons, if_pos rfl, read_cons, if_pos rfl] at this
      subst v
      rw [ih hm' hk' fun p => ?_]
      have := h p
      rw [read_cons, read_cons] at this
      by_cases hp : i = p
      · subst p
        rw [read_of_above hi (le_refl _), read_of_above hj (le_refl _)]
      · rwa [if_neg hp, if_neg hp] at this

theorem storeWord_wf {m : Memory} (h : m.wf) (o : WordOrder) (a : Nat) (v : Word) : (m.storeWord o a v).wf :=
  writeBytes_wf h _ _

theorem bytesOf_length (o : WordOrder) (v : Word) : (bytesOf o v).length = 4 := by cases o <;> rfl

theorem storeWord_within {m : Memory} {n a : Nat} (h : m.within n) (o : WordOrder) (v : Word) (ha : a + 4 ≤ n) :
    (m.storeWord o a v).within n :=
  writeBytes_within h _ (by rw [bytesOf_length]; exact ha)

/-- Read after `StoreWord`. -/
theorem read_storeWord {m : Memory} (h : m.wf) (o : WordOrder) (a : Nat) (v : Word) (p : Nat) :
    (m.storeWord o a v).read p = if a ≤ p ∧ p < a + 4 then (bytesOf o v).getD (p - a) 0 else m.read p := by
  rw [Memory.storeWord, read_writeBytes h, bytesOf_length]

end Sys2Proof.Machine
end

