-- ==== Sys2Proof/Laws/State.lean ====
section
/-! SUPPORT. One lemma per field per update of State, so that no proof unfolds a record update; what the shared register
operations of Machine/Ops.lean do to each field. -/

namespace Sys2Proof.Machine

@[simp] theorem setWords_words (s : State) (w : Words) : (s.setWords w).words = w := rfl
@[simp] theorem setWords_countLo (s : State) (w : Words) : (s.setWords w).countLo = s.countLo := rfl
@[simp] theorem setWords_countHi (s : State) (w : Words) : (s.setWords w).countHi = s.countHi := rfl
@[simp] theorem setWords_mem (s : State) (w : Words) : (s.setWords w).mem = s.mem := rfl
@[simp] theorem setWords_phase (s : State) (w : Words) : (s.setWords w).phase = s.phase := rfl
@[simp] theorem setWords_work (s : State) (w : Words) : (s.setWords w).work = s.work := rfl
@[simp] theorem setWords_creq (s : State) (w : Words) : (s.setWords w).creq = s.creq := rfl
@[simp] theorem setWords_pending (s : State) (w : Words) : (s.setWords w).pending = s.pending := rfl
@[simp] theorem setWords_received (s : State) (w : Words) : (s.setWords w).received = s.received := rfl

@[simp] theorem setCount_words (s : State) (p : Word × Word) : (s.setCount p).words = s.words := rfl
@[simp] theorem setCount_countLo (s : State) (p : Word × Word) : (s.setCount p).countLo = p.2 := rfl
@[simp] theorem setCount_countHi (s : State) (p : Word × Word) : (s.setCount p).countHi = p.1 := rfl
@[simp] theorem setCount_mem (s : State) (p : Word × Word) : (s.setCount p).mem = s.mem := rfl
@[simp] theorem setCount_phase (s : State) (p : Word × Word) : (s.setCount p).phase = s.phase := rfl
@[simp] theorem setCount_work (s : State) (p : Word × Word) : (s.setCount p).work = s.work := rfl
@[simp] theorem setCount_creq (s : State) (p : Word × Word) : (s.setCount p).creq = s.creq := rfl
@[simp] theorem setCount_pending (s : State) (p : Word × Word) : (s.setCount p).pending = s.pending := rfl
@[simp] theorem setCount_received (s : State) (p : Word × Word) : (s.setCount p).received = s.received := rfl

@[simp] theorem setMem_words (s : State) (m : Memory) : (s.setMem m).words = s.words := rfl
@[simp] theorem setMem_countLo (s : State) (m : Memory) : (s.setMem m).countLo = s.countLo := rfl
@[simp] theorem setMem_countHi (s : State) (m : Memory) : (s.setMem m).countHi = s.countHi := rfl
@[simp] theorem setMem_mem (s : State) (m : Memory) : (s.setMem m).mem = m := rfl
@[simp] theorem setMem_phase (s : State) (m : Memory) : (s.setMem m).phase = s.phase := rfl
@[simp] theorem setMem_work (s : State) (m : Memory) : (s.setMem m).work = s.work := rfl
@[simp] theorem setMem_creq (s : State) (m : Memory) : (s.setMem m).creq = s.creq := rfl
@[simp] theorem setMem_pending (s : State) (m : Memory) : (s.setMem m).pending = s.pending := rfl
@[simp] theorem setMem_received (s : State) (m : Memory) : (s.setMem m).received = s.received := rfl

@[simp] theorem setPhase_words (s : State) (p : Phase) : (s.setPhase p).words = s.words := rfl
@[simp] theorem setPhase_countLo (s : State) (p : Phase) : (s.setPhase p).countLo = s.countLo := rfl
@[simp] theorem setPhase_countHi (s : State) (p : Phase) : (s.setPhase p).countHi = s.countHi := rfl
@[simp] theorem setPhase_mem (s : State) (p : Phase) : (s.setPhase p).mem = s.mem := rfl
@[simp] theorem setPhase_phase (s : State) (p : Phase) : (s.setPhase p).phase = p := rfl
@[simp] theorem setPhase_work (s : State) (p : Phase) : (s.setPhase p).work = s.work := rfl
@[simp] theorem setPhase_creq (s : State) (p : Phase) : (s.setPhase p).creq = s.creq := rfl
@[simp] theorem setPhase_pending (s : State) (p : Phase) : (s.setPhase p).pending = s.pending := rfl
@[simp] theorem setPhase_received (s : State) (p : Phase) : (s.setPhase p).received = s.received := rfl

@[simp] theorem setWork_words (s : State) (w : Work) : (s.setWork w).words = s.words := rfl
@[simp] theorem setWork_countLo (s : State) (w : Work) : (s.setWork w).countLo = s.countLo := rfl
@[simp] theorem setWork_countHi (s : State) (w : Work) : (s.setWork w).countHi = s.countHi := rfl
@[simp] theorem setWork_mem (s : State) (w : Work) : (s.setWork w).mem = s.mem := rfl
@[simp] theorem setWork_phase (s : State) (w : Work) : (s.setWork w).phase = s.phase := rfl
@[simp] theorem setWork_work (s : State) (w : Work) : (s.setWork w).work = w := rfl
@[simp] theorem setWork_creq (s : State) (w : Work) : (s.setWork w).creq = s.creq := rfl
@[simp] theorem setWork_pending (s : State) (w : Work) : (s.setWork w).pending = s.pending := rfl
@[simp] theorem setWork_received (s : State) (w : Work) : (s.setWork w).received = s.received := rfl

@[simp] theorem setCreq_words (s : State) (r : Option (BitVec 2)) : (s.setCreq r).words = s.words := rfl
@[simp] theorem setCreq_countLo (s : State) (r : Option (BitVec 2)) : (s.setCreq r).countLo = s.countLo := rfl
@[simp] theorem setCreq_countHi (s : State) (r : Option (BitVec 2)) : (s.setCreq r).countHi = s.countHi := rfl
@[simp] theorem setCreq_mem (s : State) (r : Option (BitVec 2)) : (s.setCreq r).mem = s.mem := rfl
@[simp] theorem setCreq_phase (s : State) (r : Option (BitVec 2)) : (s.setCreq r).phase = s.phase := rfl
@[simp] theorem setCreq_work (s : State) (r : Option (BitVec 2)) : (s.setCreq r).work = s.work := rfl
@[simp] theorem setCreq_creq (s : State) (r : Option (BitVec 2)) : (s.setCreq r).creq = r := rfl
@[simp] theorem setCreq_pending (s : State) (r : Option (BitVec 2)) : (s.setCreq r).pending = s.pending := rfl
@[simp] theorem setCreq_received (s : State) (r : Option (BitVec 2)) : (s.setCreq r).received = s.received := rfl

@[simp] theorem setPending_words (s : State) (p : List HostInput) : (s.setPending p).words = s.words := rfl
@[simp] theorem setPending_countLo (s : State) (p : List HostInput) : (s.setPending p).countLo = s.countLo := rfl
@[simp] theorem setPending_countHi (s : State) (p : List HostInput) : (s.setPending p).countHi = s.countHi := rfl
@[simp] theorem setPending_mem (s : State) (p : List HostInput) : (s.setPending p).mem = s.mem := rfl
@[simp] theorem setPending_phase (s : State) (p : List HostInput) : (s.setPending p).phase = s.phase := rfl
@[simp] theorem setPending_work (s : State) (p : List HostInput) : (s.setPending p).work = s.work := rfl
@[simp] theorem setPending_creq (s : State) (p : List HostInput) : (s.setPending p).creq = s.creq := rfl
@[simp] theorem setPending_pending (s : State) (p : List HostInput) : (s.setPending p).pending = p := rfl
@[simp] theorem setPending_received (s : State) (p : List HostInput) : (s.setPending p).received = s.received := rfl

@[simp] theorem setReceived_words (s : State) (r : List Byte) : (s.setReceived r).words = s.words := rfl
@[simp] theorem setReceived_countLo (s : State) (r : List Byte) : (s.setReceived r).countLo = s.countLo := rfl
@[simp] theorem setReceived_countHi (s : State) (r : List Byte) : (s.setReceived r).countHi = s.countHi := rfl
@[simp] theorem setReceived_mem (s : State) (r : List Byte) : (s.setReceived r).mem = s.mem := rfl
@[simp] theorem setReceived_phase (s : State) (r : List Byte) : (s.setReceived r).phase = s.phase := rfl
@[simp] theorem setReceived_work (s : State) (r : List Byte) : (s.setReceived r).work = s.work := rfl
@[simp] theorem setReceived_creq (s : State) (r : List Byte) : (s.setReceived r).creq = s.creq := rfl
@[simp] theorem setReceived_pending (s : State) (r : List Byte) : (s.setReceived r).pending = s.pending := rfl
@[simp] theorem setReceived_received (s : State) (r : List Byte) : (s.setReceived r).received = r := rfl

@[simp] theorem beginWith_words (alg : Alg) (iv : Words) (s : State) : (beginWith alg iv s).words = iv := rfl
@[simp] theorem beginWith_countLo (alg : Alg) (iv : Words) (s : State) : (beginWith alg iv s).countLo = 0 := rfl
@[simp] theorem beginWith_countHi (alg : Alg) (iv : Words) (s : State) : (beginWith alg iv s).countHi = 0 := rfl
@[simp] theorem beginWith_mem (alg : Alg) (iv : Words) (s : State) : (beginWith alg iv s).mem = s.mem := rfl
@[simp] theorem beginWith_phase (alg : Alg) (iv : Words) (s : State) : (beginWith alg iv s).phase = .active alg := rfl
@[simp] theorem beginWith_work (alg : Alg) (iv : Words) (s : State) : (beginWith alg iv s).work = s.work := rfl
@[simp] theorem beginWith_creq (alg : Alg) (iv : Words) (s : State) : (beginWith alg iv s).creq = s.creq := rfl
@[simp] theorem beginWith_pending (alg : Alg) (iv : Words) (s : State) : (beginWith alg iv s).pending = s.pending := rfl
@[simp] theorem beginWith_received (alg : Alg) (iv : Words) (s : State) : (beginWith alg iv s).received = s.received := rfl

@[simp] theorem writeBlock_words (c : Config) (s : State) (i : Nat) (data : List Byte) :
    (writeBlock c s i data).words = s.words := rfl
@[simp] theorem writeBlock_countLo (c : Config) (s : State) (i : Nat) (data : List Byte) :
    (writeBlock c s i data).countLo = s.countLo := rfl
@[simp] theorem writeBlock_countHi (c : Config) (s : State) (i : Nat) (data : List Byte) :
    (writeBlock c s i data).countHi = s.countHi := rfl
@[simp] theorem writeBlock_mem (c : Config) (s : State) (i : Nat) (data : List Byte) :
    (writeBlock c s i data).mem = s.mem.writeBytes (c.hdr + i) data := rfl
@[simp] theorem writeBlock_phase (c : Config) (s : State) (i : Nat) (data : List Byte) :
    (writeBlock c s i data).phase = s.phase := rfl
@[simp] theorem writeBlock_work (c : Config) (s : State) (i : Nat) (data : List Byte) :
    (writeBlock c s i data).work = s.work := rfl
@[simp] theorem writeBlock_creq (c : Config) (s : State) (i : Nat) (data : List Byte) :
    (writeBlock c s i data).creq = s.creq := rfl
@[simp] theorem writeBlock_pending (c : Config) (s : State) (i : Nat) (data : List Byte) :
    (writeBlock c s i data).pending = s.pending := rfl
@[simp] theorem writeBlock_received (c : Config) (s : State) (i : Nat) (data : List Byte) :
    (writeBlock c s i data).received = s.received := rfl

@[simp] theorem countBytes_words (s : State) (len : Word) : (countBytes s len).words = s.words := rfl
@[simp] theorem countBytes_countLo (s : State) (len : Word) : (countBytes s len).countLo = s.countLo + len := rfl
@[simp] theorem countBytes_countHi (s : State) (len : Word) : (countBytes s len).countHi = (addCount s.countHi s.countLo len).1 := rfl
@[simp] theorem countBytes_mem (s : State) (len : Word) : (countBytes s len).mem = s.mem := rfl
@[simp] theorem countBytes_phase (s : State) (len : Word) : (countBytes s len).phase = s.phase := rfl
@[simp] theorem countBytes_work (s : State) (len : Word) : (countBytes s len).work = s.work := rfl
@[simp] theorem countBytes_creq (s : State) (len : Word) : (countBytes s len).creq = s.creq := rfl
@[simp] theorem countBytes_pending (s : State) (len : Word) : (countBytes s len).pending = s.pending := rfl
@[simp] theorem countBytes_received (s : State) (len : Word) : (countBytes s len).received = s.received := rfl

@[simp] theorem zeroScratch_words (c : Config) (s : State) : (zeroScratch c s).words = s.words := rfl
@[simp] theorem zeroScratch_countLo (c : Config) (s : State) : (zeroScratch c s).countLo = s.countLo := rfl
@[simp] theorem zeroScratch_countHi (c : Config) (s : State) : (zeroScratch c s).countHi = s.countHi := rfl
@[simp] theorem zeroScratch_mem (c : Config) (s : State) : (zeroScratch c s).mem = s.mem.zeroFill 0 c.bufsz := rfl
@[simp] theorem zeroScratch_phase (c : Config) (s : State) : (zeroScratch c s).phase = s.phase := rfl
@[simp] theorem zeroScratch_work (c : Config) (s : State) : (zeroScratch c s).work = s.work := rfl
@[simp] theorem zeroScratch_creq (c : Config) (s : State) : (zeroScratch c s).creq = s.creq := rfl
@[simp] theorem zeroScratch_pending (c : Config) (s : State) : (zeroScratch c s).pending = s.pending := rfl
@[simp] theorem zeroScratch_received (c : Config) (s : State) : (zeroScratch c s).received = s.received := rfl

/-- States that agree on every field are equal. -/
theorem state_ext {s t : State} (words : s.words = t.words) (countLo : s.countLo = t.countLo)
    (countHi : s.countHi = t.countHi) (mem : s.mem = t.mem) (phase : s.phase = t.phase) (work : s.work = t.work)
    (creq : s.creq = t.creq) (pending : s.pending = t.pending) (received : s.received = t.received) : s = t := by
  cases s; cases t; simp_all

/-- `index` depends on the low half only (R61). -/
theorem index_congr {s t : State} (h : s.countLo = t.countLo) : s.index = t.index := by rw [State.index, State.index, h]

@[simp] theorem setMem_index (s : State) (m : Memory) : (s.setMem m).index = s.index := rfl
@[simp] theorem setWords_index (s : State) (w : Words) : (s.setWords w).index = s.index := rfl
@[simp] theorem setWork_index (s : State) (w : Work) : (s.setWork w).index = s.index := rfl
@[simp] theorem setPhase_index (s : State) (p : Phase) : (s.setPhase p).index = s.index := rfl
@[simp] theorem setPending_index (s : State) (p : List HostInput) : (s.setPending p).index = s.index := rfl
@[simp] theorem setReceived_index (s : State) (r : List Byte) : (s.setReceived r).index = s.index := rfl
@[simp] theorem writeBlock_index (c : Config) (s : State) (i : Nat) (data : List Byte) :
    (writeBlock c s i data).index = s.index := rfl
@[simp] theorem zeroScratch_index (c : Config) (s : State) : (zeroScratch c s).index = s.index := rfl

/-- `index = countLo mod 64` (R61). -/
theorem index_eq (s : State) : s.index = s.countLo.toNat % 64 := by
  simp [State.index, BitVec.extractLsb'_toNat]

/-- `index` is a number in 0..63 (R61). -/
theorem index_lt (s : State) : s.index < 64 := by rw [index_eq]; omega

/-- `index = byteCount mod 64` (R61). -/
theorem index_eq_byteCount (s : State) : s.index = s.byteCount % 64 := by
  rw [index_eq, State.byteCount, byteCountOf]; omega

/-- `AddCount` is 64-bit addition (R62). -/
theorem byteCountOf_addCount (hi lo len : Word) (h : len.toNat ≤ 65535) :
    byteCountOf (addCount hi lo len).1 (addCount hi lo len).2 = (byteCountOf hi lo + len.toNat) % 2 ^ 64 := by
  have hh := hi.isLt
  have hl := lo.isLt
  simp only [addCount, countCarry, byteCountOf, decide_eq_true_eq, BitVec.toNat_add]
  split
  · simp only [BitVec.toNat_add, BitVec.toNat_ofNat]; omega
  · omega

/-- The carry of `AddCount` is the wrap of the low half (R62). -/
theorem countCarry_iff (lo len : Word) : countCarry lo len = true ↔ 2 ^ 32 ≤ lo.toNat + len.toNat := by
  have hl := lo.isLt
  have hn := len.isLt
  simp only [countCarry, decide_eq_true_eq, BitVec.toNat_add]
  omega

/-- Bytes to bits is multiplication by 8 modulo 2^64 (R83). -/
theorem byteCountOf_bitCount (hi lo : Word) :
    byteCountOf (bitCount hi lo).1 (bitCount hi lo).2 = 8 * byteCountOf hi lo % 2 ^ 64 := by
  have hh := hi.isLt
  have hl := lo.isLt
  have e : ((hi <<< 3) ||| (lo >>> 29)).toNat = (hi.toNat * 8) % 2 ^ 32 + lo.toNat / 2 ^ 29 := by
    have h1 : (hi <<< 3) &&& (lo >>> 29) = 0#32 := by
      ext i hi'
      simp only [BitVec.getElem_and, BitVec.getElem_shiftLeft, BitVec.getElem_ushiftRight]
      by_cases h3 : i < 3
      · simp [h3]
      · simp [h3, BitVec.getLsbD_of_ge lo (29 + i) (by omega)]
    rw [← BitVec.add_eq_or_of_and_eq_zero _ _ h1]
    simp [Nat.shiftLeft_eq, Nat.shiftRight_eq_div_pow]
    omega
  simp only [bitCount, byteCountOf, e]
  simp [Nat.shiftLeft_eq]
  omega

/-- The counter after `AddCount`, within 64 bits (R62). -/
theorem countBytes_byteCount (s : State) (len : Word) (h : len.toNat ≤ 65535) :
    (countBytes s len).byteCount = (s.byteCount + len.toNat) % 2 ^ 64 := byteCountOf_addCount _ _ _ h

end Sys2Proof.Machine
end

