-- ==== Sys2Proof/Laws/Compress.lean ====
section
/-! SUPPORT. What one compression does to each field (40_init_update.md rule R64), and the message words of a block. -/

namespace Sys2Proof.Machine

open Sys2Proof.Reference
open Sys2Proof.Safety

theorem sixteenOf_congr {f g : Nat → Word} (h : ∀ i, i < 16 → f i = g i) : sixteenOf f = sixteenOf g := by
  simp only [sixteenOf, h 0 (by omega), h 1 (by omega), h 2 (by omega), h 3 (by omega), h 4 (by omega), h 5 (by omega),
    h 6 (by omega), h 7 (by omega), h 8 (by omega), h 9 (by omega), h 10 (by omega), h 11 (by omega), h 12 (by omega),
    h 13 (by omega), h 14 (by omega), h 15 (by omega)]

/-- The message words are those of the 64 bytes of the block region, as a list (R29 (a)). -/
theorem loadBlock_eq_blockWords (c : Config) (o : WordOrder) (s : State) :
    loadBlock c o s = blockWords o (s.mem.readBytes c.hdr 64) := by
  refine sixteenOf_congr fun i hi => ?_
  rw [Memory.loadWord, readBytes_getD _ _ _ _ (by omega), readBytes_getD _ _ _ _ (by omega),
    readBytes_getD _ _ _ _ (by omega), readBytes_getD _ _ _ _ (by omega)]
  rfl

/-- The message words depend on the block region only. -/
theorem loadBlock_congr {c : Config} {o : WordOrder} {s t : State}
    (h : ∀ i, i < 64 → s.mem.read (c.hdr + i) = t.mem.read (c.hdr + i)) : loadBlock c o s = loadBlock c o t := by
  refine sixteenOf_congr fun i hi => ?_
  simp only [Memory.loadWord, Nat.add_assoc]
  rw [h (4 * i) (by omega), h (4 * i + 1) (by omega), h (4 * i + 2) (by omega), h (4 * i + 3) (by omega)]

theorem md5Core_words (c : Config) (s : State) : (md5Core c s).words = md5Block s.words (loadBlock c .le s) := by
  rw [md5Core, setWork_words, setWords_words]
@[simp] theorem md5Core_countLo (c : Config) (s : State) : (md5Core c s).countLo = s.countLo := by rw [md5Core, setWork_countLo, setWords_countLo]
@[simp] theorem md5Core_countHi (c : Config) (s : State) : (md5Core c s).countHi = s.countHi := by rw [md5Core, setWork_countHi, setWords_countHi]
@[simp] theorem md5Core_mem (c : Config) (s : State) : (md5Core c s).mem = s.mem := by rw [md5Core, setWork_mem, setWords_mem]
@[simp] theorem md5Core_phase (c : Config) (s : State) : (md5Core c s).phase = s.phase := by rw [md5Core, setWork_phase, setWords_phase]
@[simp] theorem md5Core_work (c : Config) (s : State) : (md5Core c s).work = scrubbed .md5 s.work := by rw [md5Core, setWork_work]; rfl
@[simp] theorem md5Core_creq (c : Config) (s : State) : (md5Core c s).creq = s.creq := by rw [md5Core, setWork_creq, setWords_creq]
@[simp] theorem md5Core_pending (c : Config) (s : State) : (md5Core c s).pending = s.pending := by rw [md5Core, setWork_pending, setWords_pending]
@[simp] theorem md5Core_received (c : Config) (s : State) : (md5Core c s).received = s.received := by rw [md5Core, setWork_received, setWords_received]

theorem sha1Core_words (c : Config) (s : State) : (sha1Core c s).words = sha1Block s.words (loadBlock c .be s) := by
  rw [sha1Core, setWork_words, setWords_words]
@[simp] theorem sha1Core_countLo (c : Config) (s : State) : (sha1Core c s).countLo = s.countLo := by rw [sha1Core, setWork_countLo, setWords_countLo]
@[simp] theorem sha1Core_countHi (c : Config) (s : State) : (sha1Core c s).countHi = s.countHi := by rw [sha1Core, setWork_countHi, setWords_countHi]
@[simp] theorem sha1Core_mem (c : Config) (s : State) : (sha1Core c s).mem = s.mem := by rw [sha1Core, setWork_mem, setWords_mem]
@[simp] theorem sha1Core_phase (c : Config) (s : State) : (sha1Core c s).phase = s.phase := by rw [sha1Core, setWork_phase, setWords_phase]
@[simp] theorem sha1Core_work (c : Config) (s : State) : (sha1Core c s).work = scrubbed .sha1 s.work := by rw [sha1Core, setWork_work]; rfl
@[simp] theorem sha1Core_creq (c : Config) (s : State) : (sha1Core c s).creq = s.creq := by rw [sha1Core, setWork_creq, setWords_creq]
@[simp] theorem sha1Core_pending (c : Config) (s : State) : (sha1Core c s).pending = s.pending := by rw [sha1Core, setWork_pending, setWords_pending]
@[simp] theorem sha1Core_received (c : Config) (s : State) : (sha1Core c s).received = s.received := by rw [sha1Core, setWork_received, setWords_received]

theorem sha256Core_words (c : Config) (s : State) : (sha256Core c s).words = sha256Block s.words (loadBlock c .be s) := by
  rw [sha256Core, setWork_words, setWords_words]
@[simp] theorem sha256Core_countLo (c : Config) (s : State) : (sha256Core c s).countLo = s.countLo := by rw [sha256Core, setWork_countLo, setWords_countLo]
@[simp] theorem sha256Core_countHi (c : Config) (s : State) : (sha256Core c s).countHi = s.countHi := by rw [sha256Core, setWork_countHi, setWords_countHi]
@[simp] theorem sha256Core_mem (c : Config) (s : State) : (sha256Core c s).mem = s.mem := by rw [sha256Core, setWork_mem, setWords_mem]
@[simp] theorem sha256Core_phase (c : Config) (s : State) : (sha256Core c s).phase = s.phase := by rw [sha256Core, setWork_phase, setWords_phase]
@[simp] theorem sha256Core_work (c : Config) (s : State) : (sha256Core c s).work = scrubbed .sha256 s.work := by rw [sha256Core, setWork_work]; rfl
@[simp] theorem sha256Core_creq (c : Config) (s : State) : (sha256Core c s).creq = s.creq := by rw [sha256Core, setWork_creq, setWords_creq]
@[simp] theorem sha256Core_pending (c : Config) (s : State) : (sha256Core c s).pending = s.pending := by rw [sha256Core, setWork_pending, setWords_pending]
@[simp] theorem sha256Core_received (c : Config) (s : State) : (sha256Core c s).received = s.received := by rw [sha256Core, setWork_received, setWords_received]

theorem rmdCore_words (c : Config) (s : State) : (rmdCore c s).words = rmdBlock s.words (loadBlock c .le s) := by
  rw [rmdCore, setWork_words, setWords_words]
@[simp] theorem rmdCore_countLo (c : Config) (s : State) : (rmdCore c s).countLo = s.countLo := by rw [rmdCore, setWork_countLo, setWords_countLo]
@[simp] theorem rmdCore_countHi (c : Config) (s : State) : (rmdCore c s).countHi = s.countHi := by rw [rmdCore, setWork_countHi, setWords_countHi]
@[simp] theorem rmdCore_mem (c : Config) (s : State) : (rmdCore c s).mem = s.mem := by rw [rmdCore, setWork_mem, setWords_mem]
@[simp] theorem rmdCore_phase (c : Config) (s : State) : (rmdCore c s).phase = s.phase := by rw [rmdCore, setWork_phase, setWords_phase]
@[simp] theorem rmdCore_work (c : Config) (s : State) : (rmdCore c s).work = scrubbed .rmd160 s.work := by rw [rmdCore, setWork_work]; rfl
@[simp] theorem rmdCore_creq (c : Config) (s : State) : (rmdCore c s).creq = s.creq := by rw [rmdCore, setWork_creq, setWords_creq]
@[simp] theorem rmdCore_pending (c : Config) (s : State) : (rmdCore c s).pending = s.pending := by rw [rmdCore, setWork_pending, setWords_pending]
@[simp] theorem rmdCore_received (c : Config) (s : State) : (rmdCore c s).received = s.received := by rw [rmdCore, setWork_received, setWords_received]

/-- The new words of one run of a core. -/
theorem runCore_words (c : Config) (alg : Alg) (s : State) :
    (runCore c alg s).words = blockFunction alg s.words (loadBlock c (wordOrder alg) s) := by
  cases alg
  · exact md5Core_words c s
  · exact sha1Core_words c s
  · exact sha256Core_words c s
  · exact rmdCore_words c s

@[simp] theorem runCore_countLo (c : Config) (alg : Alg) (s : State) : (runCore c alg s).countLo = s.countLo := by
  cases alg <;> simp [runCore]
@[simp] theorem runCore_countHi (c : Config) (alg : Alg) (s : State) : (runCore c alg s).countHi = s.countHi := by
  cases alg <;> simp [runCore]
@[simp] theorem runCore_mem (c : Config) (alg : Alg) (s : State) : (runCore c alg s).mem = s.mem := by
  cases alg <;> simp [runCore]
@[simp] theorem runCore_phase (c : Config) (alg : Alg) (s : State) : (runCore c alg s).phase = s.phase := by
  cases alg <;> simp [runCore]
@[simp] theorem runCore_work (c : Config) (alg : Alg) (s : State) : (runCore c alg s).work = scrubbed alg s.work := by
  cases alg <;> simp [runCore]
@[simp] theorem runCore_creq (c : Config) (alg : Alg) (s : State) : (runCore c alg s).creq = s.creq := by
  cases alg <;> simp [runCore]
@[simp] theorem runCore_pending (c : Config) (alg : Alg) (s : State) : (runCore c alg s).pending = s.pending := by
  cases alg <;> simp [runCore]
@[simp] theorem runCore_received (c : Config) (alg : Alg) (s : State) : (runCore c alg s).received = s.received := by
  cases alg <;> simp [runCore]

/-- The words after `Compress(alg)`. -/
theorem compress_words (c : Config) (alg : Alg) (s : State) :
    (compress c alg s).words = blockFunction alg s.words (loadBlock c (wordOrder alg) s) := by
  rw [compress, zeroScratch_words, runCore_words]

@[simp] theorem compress_countLo (c : Config) (alg : Alg) (s : State) : (compress c alg s).countLo = s.countLo := by
  rw [compress, zeroScratch_countLo, runCore_countLo]
@[simp] theorem compress_countHi (c : Config) (alg : Alg) (s : State) : (compress c alg s).countHi = s.countHi := by
  rw [compress, zeroScratch_countHi, runCore_countHi]
@[simp] theorem compress_mem (c : Config) (alg : Alg) (s : State) : (compress c alg s).mem = s.mem.zeroFill 0 c.bufsz := by
  rw [compress, zeroScratch_mem, runCore_mem]
@[simp] theorem compress_phase (c : Config) (alg : Alg) (s : State) : (compress c alg s).phase = s.phase := by
  rw [compress, zeroScratch_phase, runCore_phase]
@[simp] theorem compress_work (c : Config) (alg : Alg) (s : State) : (compress c alg s).work = scrubbed alg s.work := by
  rw [compress, zeroScratch_work, runCore_work]
@[simp] theorem compress_creq (c : Config) (alg : Alg) (s : State) : (compress c alg s).creq = s.creq := by
  rw [compress, zeroScratch_creq, runCore_creq]
@[simp] theorem compress_pending (c : Config) (alg : Alg) (s : State) : (compress c alg s).pending = s.pending := by
  rw [compress, zeroScratch_pending, runCore_pending]
@[simp] theorem compress_received (c : Config) (alg : Alg) (s : State) : (compress c alg s).received = s.received := by
  rw [compress, zeroScratch_received, runCore_received]

@[simp] theorem compress_index (c : Config) (alg : Alg) (s : State) : (compress c alg s).index = s.index :=
  index_congr (compress_countLo c alg s)

/-- `Compress(alg)` does not touch the counter and does not read it. -/
theorem compress_countBytes (c : Config) (alg : Alg) (s : State) (len : Word) :
    compress c alg (countBytes s len) = countBytes (compress c alg s) len := by
  apply state_ext <;> simp [compress_words, loadBlock]

theorem writeBlock_countBytes (c : Config) (s : State) (len : Word) (i : Nat) (data : List Byte) :
    writeBlock c (countBytes s len) i data = countBytes (writeBlock c s i data) len := rfl

/-- Every byte of the buffer is 0x00 after a compression (R64 (3)). -/
theorem compress_read (c : Config) (alg : Alg) (s : State) (p : Nat) (h : p < c.bufsz) :
    (compress c alg s).mem.read p = 0#8 := by
  rw [compress_mem, read_zeroFill, if_pos (by omega)]

theorem compress_read_outside (c : Config) (alg : Alg) (s : State) (p : Nat) (h : c.bufsz ≤ p) :
    (compress c alg s).mem.read p = s.mem.read p := by
  rw [compress_mem, read_zeroFill, if_neg (by omega)]

theorem compress_wf {c : Config} {alg : Alg} {s : State} (h : s.mem.wf) : (compress c alg s).mem.wf := by
  rw [compress_mem]; exact zeroFill_wf h _ _

theorem md5Add_upperSame (w : Words) (r : Md5Work) : upperSame .md5 (md5Add w r) w := ⟨rfl, rfl, rfl, rfl⟩
theorem sha1Add_upperSame (w : Words) (r : Sha1Work) : upperSame .sha1 (sha1Add w r) w := ⟨rfl, rfl, rfl⟩
theorem rmdCombine_upperSame (w : Words) (k : Rmd160Work) : upperSame .rmd160 (rmdCombine w k) w := ⟨rfl, rfl, rfl⟩

/-- The words an algorithm does not use are left alone by its compression (R64). -/
theorem blockFunction_upperSame (alg : Alg) (w : Words) (x : Sixteen) : upperSame alg (blockFunction alg w x) w := by
  cases alg
  · exact md5Add_upperSame w _
  · exact sha1Add_upperSame w _
  · trivial
  · exact rmdCombine_upperSame w _

theorem upperSame_refl (alg : Alg) (w : Words) : upperSame alg w w := by cases alg <;> simp [upperSame]

theorem upperSame_trans {alg : Alg} {u v w : Words} (h : upperSame alg u v) (k : upperSame alg v w) : upperSame alg u w := by
  cases alg <;> simp_all [upperSame]

theorem upperZero_of_same {alg : Alg} {u v : Words} (h : upperSame alg u v) (k : upperZero alg v) : upperZero alg u := by
  cases alg <;> simp_all [upperSame, upperZero]

theorem scrubbed_scrubbed (alg : Alg) (k : Work) : scrubbed alg (scrubbed alg k) = scrubbed alg k := by cases alg <;> rfl

theorem scrubbed_zero (alg : Alg) : scrubbed alg Work.zero = Work.zero := by cases alg <;> rfl

end Sys2Proof.Machine
end

