-- ==== Sys2Proof/Laws/Absorb.lean ====
section
/-! SUPPORT. What `Absorb` does (40_init_update.md rule R63): it is the byte-serial form of R74, and one lemma says each
thing it can do to words, buffer, counter and registers. Every lemma holds for every configuration. -/

namespace Sys2Proof.Machine

open Sys2Proof.Reference
open Sys2Proof.Safety

/-! ## The counter -/

/-- Two additions to the counter are one, as long as the sum of the lengths does not wrap. -/
theorem addCount_addCount (hi lo x y : Word) (h : x.toNat + y.toNat < 2 ^ 32) :
    addCount (addCount hi lo x).1 (addCount hi lo x).2 y = addCount hi lo (x + y) := by
  have hx : (lo + x).toNat = (lo.toNat + x.toNat) % 2 ^ 32 := BitVec.toNat_add _ _
  have hs : (x + y).toNat = x.toNat + y.toNat := by rw [BitVec.toNat_add, Nat.mod_eq_of_lt h]
  have hl := lo.isLt
  simp only [addCount, countCarry_iff, BitVec.add_assoc, Prod.mk.injEq, and_true, hx, hs]
  split <;> split <;> split <;> first | rfl | (exfalso; omega)

theorem countBytes_countBytes (s : State) (x y : Word) (h : x.toNat + y.toNat < 2 ^ 32) :
    countBytes (countBytes s x) y = countBytes s (x + y) := by
  have e := addCount_addCount s.countHi s.countLo x y h
  apply state_ext <;> simp only [countBytes_words, countBytes_countLo, countBytes_countHi, countBytes_mem,
    countBytes_phase, countBytes_work, countBytes_creq, countBytes_pending, countBytes_received]
  · rw [BitVec.add_assoc]
  · exact congrArg Prod.fst e

theorem countBytes_zero (s : State) : countBytes s 0#32 = s := by
  apply state_ext <;> simp [addCount, countCarry]

theorem lenWord_toNat (l : List Byte) (h : l.length ≤ 65535) : (lenWord l).toNat = l.length := by
  rw [lenWord, BitVec.toNat_ofNat, Nat.mod_eq_of_lt (by omega)]

theorem lenWord_append (l k : List Byte) : lenWord (l ++ k) = lenWord l + lenWord k := by
  rw [lenWord, lenWord, lenWord, List.length_append, BitVec.ofNat_add]

theorem lenWord_cons (b : Byte) (l : List Byte) : lenWord (b :: l) = 1#32 + lenWord l := lenWord_append [b] l

theorem countBytes_lenWord (s : State) (l k : List Byte) (h : l.length + k.length ≤ 65535) :
    countBytes (countBytes s (lenWord l)) (lenWord k) = countBytes s (lenWord (l ++ k)) := by
  rw [countBytes_countBytes, lenWord_append]
  rw [lenWord_toNat l (by omega), lenWord_toNat k (by omega)]
  omega

theorem countBytes_index (s : State) (l : List Byte) :
    (countBytes s (lenWord l)).index = (s.index + l.length) % 64 := by
  rw [index_eq, index_eq, countBytes_countLo, lenWord, BitVec.toNat_add, BitVec.toNat_ofNat]
  omega

theorem countBytes_one_index (s : State) : (countBytes s 1#32).index = (s.index + 1) % 64 := countBytes_index s [0]

/-! ## One byte -/

theorem absorbByte_short (c : Config) (alg : Alg) (s : State) (b : Byte) (h : s.index ≠ 63) :
    absorbByte c alg s b = (countBytes s 1#32).setMem (s.mem.write (c.hdr + s.index) b) := by
  rw [absorbByte, if_neg h]

theorem absorbByte_full (c : Config) (alg : Alg) (s : State) (b : Byte) (h : s.index = 63) :
    absorbByte c alg s b = compress c alg ((countBytes s 1#32).setMem (s.mem.write (c.hdr + s.index) b)) := by
  rw [absorbByte, if_pos h]

theorem absorbByte_index (c : Config) (alg : Alg) (s : State) (b : Byte) :
    (absorbByte c alg s b).index = (s.index + 1) % 64 := by
  rw [absorbByte]
  split
  · rw [compress_index, setMem_index, countBytes_one_index]
  · rw [setMem_index, countBytes_one_index]

/-! ## `Absorb` is the byte-serial form (R74) -/

/-- Bytes that do not cross the end of the block: appended, and compressed when they fill it exactly. -/
theorem foldl_absorbByte_within (c : Config) (alg : Alg) (l : List Byte) (s : State) (hl : l ≠ [])
    (h : s.index + l.length ≤ 64) :
    l.foldl (absorbByte c alg) s =
      (if s.index + l.length = 64 then compress c alg (writeBlock c (countBytes s (lenWord l)) s.index l)
       else writeBlock c (countBytes s (lenWord l)) s.index l) := by
  induction l generalizing s with
  | nil => exact absurd rfl hl
  | cons b l ih =>
    rw [List.length_cons] at h
    have hi := index_lt s
    rcases Nat.eq_zero_or_pos l.length with h0 | h0
    · obtain rfl := List.eq_nil_of_length_eq_zero h0
      simp only [List.foldl_cons, List.foldl_nil, List.length_cons, List.length_nil]
      by_cases h63 : s.index = 63
      · rw [absorbByte_full c alg s b h63, if_pos (by omega)]; rfl
      · rw [absorbByte_short c alg s b h63, if_neg (by omega)]; rfl
    · have h63 : s.index ≠ 63 := by omega
      have hx : (absorbByte c alg s b).index = s.index + 1 := by
        rw [absorbByte_index, Nat.mod_eq_of_lt (by omega)]
      have e : writeBlock c (countBytes (absorbByte c alg s b) (lenWord l)) (s.index + 1) l =
          writeBlock c (countBytes s (lenWord (b :: l))) s.index (b :: l) := by
        have ec := countBytes_lenWord s [b] l (by simp; omega)
        rw [absorbByte_short c alg s b h63]
        change writeBlock c ((countBytes (countBytes s (lenWord [b])) (lenWord l)).setMem _) _ _ = _
        rw [ec]
        rfl
      rw [List.foldl_cons, ih _ (by intro hn; simp [hn] at h0) (by omega), hx, e, List.length_cons]
      by_cases h64 : s.index + (l.length + 1) = 64
      · rw [if_pos (by omega), if_pos h64]
      · rw [if_neg (by omega), if_neg h64]

theorem absorbStrides_countBytes (c : Config) (alg : Alg) (n : Nat) (data : List Byte) (s : State) (len : Word) :
    absorbStrides c alg n data (countBytes s len) = countBytes (absorbStrides c alg n data s) len := by
  induction n generalizing data s with
  | zero => rfl
  | succ n ih => rw [absorbStrides, writeBlock_countBytes, compress_countBytes, ih, absorbStrides]

/-- From a block boundary, the strides of `Absorb` are the byte-serial form. -/
theorem foldl_absorbByte_strides (c : Config) (alg : Alg) (n : Nat) (data : List Byte) (s : State)
    (hn : data.length / 64 = n) (hx : s.index = 0) (hlen : data.length ≤ 65535) :
    data.foldl (absorbByte c alg) s = countBytes (absorbStrides c alg n data s) (lenWord data) := by
  induction n generalizing data s with
  | zero =>
    by_cases h0 : data = []
    · subst h0
      exact (countBytes_zero s).symm
    · rw [foldl_absorbByte_within c alg data s h0 (by omega), if_neg (by omega), hx, writeBlock_countBytes]
      rfl
  | succ n ih =>
    have hlt : (data.take 64).length = 64 := by rw [List.length_take]; omega
    have hld : (data.drop 64).length = data.length - 64 := List.length_drop
    have hidx : (compress c alg (writeBlock c (countBytes s (lenWord (data.take 64))) 0 (data.take 64))).index = 0 := by
      rw [compress_index, writeBlock_index, countBytes_index, hx, hlt]
    conv => lhs; rw [← List.take_append_drop 64 data]
    rw [List.foldl_append,
      foldl_absorbByte_within c alg (data.take 64) s (by intro h; rw [h] at hlt; simp at hlt) (by omega),
      if_pos (by omega), hx, ih (data.drop 64) _ (by omega) hidx (by omega), writeBlock_countBytes, compress_countBytes,
      absorbStrides_countBytes, countBytes_lenWord _ _ _ (by omega), List.take_append_drop, absorbStrides]

/-- `Absorb(alg, data)` is `len` single-byte absorptions (R74). -/
theorem absorb_eq_foldl (c : Config) (alg : Alg) (data : List Byte) (s : State) (hlen : data.length ≤ 65535) :
    absorb c alg data s = data.foldl (absorbByte c alg) s := by
  have hi := index_lt s
  simp only [absorb]
  split
  · rename_i h
    have hlt : (data.take (64 - s.index)).length = 64 - s.index := by rw [List.length_take]; omega
    have hld : (data.drop (64 - s.index)).length = data.length - (64 - s.index) := List.length_drop
    have hidx : (compress c alg (writeBlock c (countBytes s (lenWord (data.take (64 - s.index)))) s.index
        (data.take (64 - s.index)))).index = 0 := by
      rw [compress_index, writeBlock_index, countBytes_index, hlt]
      omega
    conv => rhs; rw [← List.take_append_drop (64 - s.index) data]
    rw [List.foldl_append,
      foldl_absorbByte_within c alg (data.take (64 - s.index)) s (by intro h; rw [h] at hlt; simp at hlt; omega) (by omega),
      if_pos (by omega), foldl_absorbByte_strides c alg _ (data.drop (64 - s.index)) _ rfl hidx (by omega),
      writeBlock_countBytes, compress_countBytes, writeBlock_countBytes, compress_countBytes, absorbStrides_countBytes,
      absorbStrides_countBytes, countBytes_lenWord _ _ _ (by omega), List.take_append_drop]
  · rename_i h
    by_cases h0 : data = []
    · subst h0
      exact countBytes_zero s
    · rw [foldl_absorbByte_within c alg data s h0 (by omega), if_neg (by omega)]

/-! ## Fields the absorption of bytes leaves alone -/

@[simp] theorem absorbByte_phase (c : Config) (alg : Alg) (s : State) (b : Byte) :
    (absorbByte c alg s b).phase = s.phase := by rw [absorbByte]; split <;> simp
@[simp] theorem absorbByte_creq (c : Config) (alg : Alg) (s : State) (b : Byte) :
    (absorbByte c alg s b).creq = s.creq := by rw [absorbByte]; split <;> simp
@[simp] theorem absorbByte_pending (c : Config) (alg : Alg) (s : State) (b : Byte) :
    (absorbByte c alg s b).pending = s.pending := by rw [absorbByte]; split <;> simp
@[simp] theorem absorbByte_received (c : Config) (alg : Alg) (s : State) (b : Byte) :
    (absorbByte c alg s b).received = s.received := by rw [absorbByte]; split <;> simp

theorem absorbStrides_field {α : Type} (c : Config) (alg : Alg) (f : State → α)
    (h : ∀ s i l, f (writeBlock c s i l) = f s) (k : ∀ s, f (compress c alg s) = f s) (n : Nat) (data : List Byte)
    (s : State) : f (absorbStrides c alg n data s) = f s := by
  induction n generalizing data s with
  | zero => exact h _ _ _
  | succ n ih => rw [absorbStrides, ih, k, h]

/-- A field that block writes, compressions and the counter leave alone is left alone by `Absorb`. -/
theorem absorb_field {α : Type} (c : Config) (alg : Alg) (f : State → α) (h : ∀ s i l, f (writeBlock c s i l) = f s)
    (k : ∀ s, f (compress c alg s) = f s) (m : ∀ s len, f (countBytes s len) = f s) (data : List Byte) (s : State) :
    f (absorb c alg data s) = f s := by
  simp only [absorb]
  split
  · rw [absorbStrides_field c alg f h k, k, h, m]
  · rw [h, m]

theorem absorb_phase (c : Config) (alg : Alg) (data : List Byte) (s : State) : (absorb c alg data s).phase = s.phase :=
  absorb_field c alg State.phase (fun _ _ _ => rfl) (compress_phase c alg) (fun _ _ => rfl) data s
theorem absorb_creq (c : Config) (alg : Alg) (data : List Byte) (s : State) : (absorb c alg data s).creq = s.creq :=
  absorb_field c alg State.creq (fun _ _ _ => rfl) (compress_creq c alg) (fun _ _ => rfl) data s
theorem absorb_pending (c : Config) (alg : Alg) (data : List Byte) (s : State) :
    (absorb c alg data s).pending = s.pending :=
  absorb_field c alg State.pending (fun _ _ _ => rfl) (compress_pending c alg) (fun _ _ => rfl) data s
theorem absorb_received (c : Config) (alg : Alg) (data : List Byte) (s : State) :
    (absorb c alg data s).received = s.received :=
  absorb_field c alg State.received (fun _ _ _ => rfl) (compress_received c alg) (fun _ _ => rfl) data s

/-! ## Words, counter and registers after the absorption -/

theorem absorbStrides_count (c : Config) (alg : Alg) (n : Nat) (data : List Byte) (s : State) :
    (absorbStrides c alg n data s).countLo = s.countLo ∧ (absorbStrides c alg n data s).countHi = s.countHi := by
  induction n generalizing data s with
  | zero => exact ⟨rfl, rfl⟩
  | succ n ih => rw [absorbStrides, (ih _ _).1, (ih _ _).2]; simp

/-- The counter after `Absorb` (R62). -/
theorem absorb_count (c : Config) (alg : Alg) (data : List Byte) (s : State) :
    (absorb c alg data s).countLo = s.countLo + lenWord data ∧
    (absorb c alg data s).countHi = (addCount s.countHi s.countLo (lenWord data)).1 := by
  simp only [absorb]
  split
  · rw [(absorbStrides_count _ _ _ _ _).1, (absorbStrides_count _ _ _ _ _).2]; simp
  · simp

theorem absorb_byteCount (c : Config) (alg : Alg) (data : List Byte) (s : State) (hlen : data.length ≤ 65535) :
    (absorb c alg data s).byteCount = (s.byteCount + data.length) % 2 ^ 64 := by
  rw [State.byteCount, (absorb_count c alg data s).1, (absorb_count c alg data s).2]
  have h := byteCountOf_addCount s.countHi s.countLo (lenWord data) (by rw [lenWord_toNat data hlen]; exact hlen)
  rw [lenWord_toNat data hlen] at h
  exact h

theorem absorb_index (c : Config) (alg : Alg) (data : List Byte) (s : State) :
    (absorb c alg data s).index = (s.index + data.length) % 64 := by
  rw [← countBytes_index s data]
  exact index_congr (absorb_count c alg data s).1

/-- A whole block in front of a message: one application of the compression function. -/
theorem foldMessage_block (alg : Alg) (w : Words) (b rest : List Byte) (h : b.length = 64) :
    foldMessage alg w (b ++ rest) = foldMessage alg (blockFunction alg w (blockWords (wordOrder alg) b)) rest := by
  have e : (b ++ rest).length / 64 = rest.length / 64 + 1 := by rw [List.length_append, h]; omega
  rw [foldMessage, e, blocks, List.take_left' h, List.drop_left' h, List.foldl_cons, foldMessage]

theorem foldMessage_short (alg : Alg) (w : Words) (d : List Byte) (h : d.length < 64) : foldMessage alg w d = w := by
  rw [foldMessage, Nat.div_eq_of_lt h, blocks, List.foldl_nil]

theorem remainder_short (d : List Byte) (h : d.length < 64) : remainder d = d := by
  rw [remainder, Nat.div_eq_of_lt h, Nat.mul_zero, List.drop_zero]

theorem remainder_block (b rest : List Byte) (h : b.length = 64) : remainder (b ++ rest) = remainder rest := by
  have e : (b ++ rest).length / 64 = rest.length / 64 + 1 := by rw [List.length_append, h]; omega
  rw [remainder, remainder, e, Nat.mul_add, Nat.add_comm, ← List.drop_drop, Nat.mul_one, List.drop_left' h]

theorem buffered_length (c : Config) (s : State) : (buffered c s).length = s.index := readBytes_length _ _ _

theorem readBytes_ext {m k : Memory} {a n : Nat} (h : ∀ i, i < n → m.read (a + i) = k.read (a + i)) :
    m.readBytes a n = k.readBytes a n := by
  apply List.map_congr_left
  intro i hi
  exact h i (List.mem_range.1 hi)

theorem readBytes_succ (m : Memory) (a n : Nat) : m.readBytes a (n + 1) = m.readBytes a n ++ [m.read (a + n)] := by
  simp [Memory.readBytes, List.range_succ]

theorem readBytes_write {m : Memory} (h : m.wf) (a n : Nat) (b : Byte) :
    (m.write (a + n) b).readBytes a (n + 1) = m.readBytes a n ++ [b] := by
  rw [readBytes_succ, read_write h, if_pos rfl]
  congr 1
  apply readBytes_ext
  intro i hi
  rw [read_write h, if_neg (by omega)]

theorem absorbByte_wf {c : Config} {alg : Alg} {s : State} (h : s.mem.wf) (b : Byte) : (absorbByte c alg s b).mem.wf := by
  rw [absorbByte]
  split
  · exact compress_wf (write_wf h _ _)
  · exact write_wf h _ _

theorem absorbByte_within {c : Config} {alg : Alg} {s : State} (h : s.mem.within c.bufsz) (b : Byte) :
    (absorbByte c alg s b).mem.within c.bufsz := by
  have hi := index_lt s
  have hw := write_within h (show c.hdr + s.index < c.bufsz by rw [Config.bufsz]; omega) b
  rw [absorbByte]
  split
  · rw [compress_mem]; exact zeroFill_within hw _ _
  · exact hw

theorem foldl_absorbByte_wf {c : Config} {alg : Alg} (data : List Byte) {s : State} (h : s.mem.wf) :
    (data.foldl (absorbByte c alg) s).mem.wf := by
  induction data generalizing s with
  | nil => exact h
  | cons b l ih => exact ih (absorbByte_wf h b)

theorem foldl_absorbByte_memWithin {c : Config} {alg : Alg} (data : List Byte) {s : State} (h : s.mem.within c.bufsz) :
    (data.foldl (absorbByte c alg) s).mem.within c.bufsz := by
  induction data generalizing s with
  | nil => exact h
  | cons b l ih => exact ih (absorbByte_within h b)

/-- One byte: the words and the buffered bytes. -/
theorem absorbByte_spec (c : Config) (alg : Alg) (s : State) (b : Byte) (h : s.mem.wf) :
    if s.index = 63 then
      (absorbByte c alg s b).words = blockFunction alg s.words (blockWords (wordOrder alg) (buffered c s ++ [b])) ∧
        buffered c (absorbByte c alg s b) = []
    else (absorbByte c alg s b).words = s.words ∧ buffered c (absorbByte c alg s b) = buffered c s ++ [b] := by
  have hi := index_lt s
  split
  · rename_i h63
    have hx : (absorbByte c alg s b).index = 0 := by rw [absorbByte_index, h63]
    refine ⟨?_, ?_⟩
    · rw [absorbByte_full c alg s b h63, compress_words, loadBlock_eq_blockWords, setMem_mem, setMem_words,
        countBytes_words, h63, readBytes_write h, buffered, h63]
    · rw [buffered, hx]; rfl
  · rename_i h63
    have hx : (absorbByte c alg s b).index = s.index + 1 := by
      rw [absorbByte_index, Nat.mod_eq_of_lt (by omega)]
    refine ⟨?_, ?_⟩
    · rw [absorbByte_short c alg s b h63, setMem_words, countBytes_words]
    · rw [buffered, hx, absorbByte_short c alg s b h63, setMem_mem, readBytes_write h, buffered]

/-- Words and buffered bytes after any run of bytes (R22 (b)). -/
theorem foldl_absorbByte_spec (c : Config) (alg : Alg) (data : List Byte) (s : State) (h : s.mem.wf) :
    (data.foldl (absorbByte c alg) s).words = foldMessage alg s.words (buffered c s ++ data) ∧
    buffered c (data.foldl (absorbByte c alg) s) = remainder (buffered c s ++ data) := by
  induction data generalizing s with
  | nil =>
    have hb : (buffered c s ++ []).length < 64 := by rw [List.append_nil, buffered_length]; exact index_lt s
    rw [foldMessage_short _ _ _ hb, remainder_short _ hb, List.append_nil]
    exact ⟨rfl, rfl⟩
  | cons b l ih =>
    obtain ⟨hw, hr⟩ := ih (absorbByte c alg s b) (absorbByte_wf h b)
    have hs := absorbByte_spec c alg s b h
    rw [List.foldl_cons, hw, hr, show buffered c s ++ b :: l = (buffered c s ++ [b]) ++ l by simp]
    split at hs
    · rename_i h63
      have hb : (buffered c s ++ [b]).length = 64 := by simp [buffered_length, h63]
      rw [hs.1, hs.2, foldMessage_block _ _ _ _ hb, remainder_block _ _ hb, List.nil_append]
      exact ⟨rfl, rfl⟩
    · rw [hs.1, hs.2]
      exact ⟨rfl, rfl⟩

/-- Every byte of the buffer outside `B[0..index-1]` is zero. -/
def cleanOutside (c : Config) (s : State) : Prop :=
  ∀ p, p < c.bufsz → (p < c.hdr ∨ c.hdr + s.index ≤ p) → s.mem.read p = 0#8

theorem absorbByte_clean {c : Config} {alg : Alg} {s : State} (h : s.mem.wf) (b : Byte)
    (hc : s.index = 63 ∨ cleanOutside c s) : cleanOutside c (absorbByte c alg s b) := by
  have hi := index_lt s
  intro p hp ho
  by_cases h63 : s.index = 63
  · rw [absorbByte_full c alg s b h63]
    exact compress_read _ _ _ _ hp
  · have hx : (absorbByte c alg s b).index = s.index + 1 := by
      rw [absorbByte_index, Nat.mod_eq_of_lt (by omega)]
    rw [hx] at ho
    rw [absorbByte_short c alg s b h63, setMem_mem, read_write h, if_neg (by omega)]
    exact (hc.resolve_left h63) p hp (by omega)

theorem foldl_absorbByte_clean (c : Config) (alg : Alg) (data : List Byte) (s : State) (h : s.mem.wf)
    (hc : 64 ≤ s.index + data.length ∨ cleanOutside c s) : cleanOutside c (data.foldl (absorbByte c alg) s) := by
  induction data generalizing s with
  | nil =>
    have hi := index_lt s
    exact hc.resolve_left (by simp; omega)
  | cons b l ih =>
    rw [List.foldl_cons]
    refine ih _ (absorbByte_wf h b) ?_
    rw [List.length_cons] at hc
    have hi := index_lt s
    by_cases h63 : s.index = 63
    · exact .inr (absorbByte_clean h b (.inl h63))
    · rcases hc with hc | hc
      · left; rw [absorbByte_index, Nat.mod_eq_of_lt (by omega)]; omega
      · exact .inr (absorbByte_clean h b (.inr hc))

/-- Working registers after a run of bytes: scrubbed as soon as one compression has run. -/
theorem foldl_absorbByte_work (c : Config) (alg : Alg) (data : List Byte) (s : State) :
    (data.foldl (absorbByte c alg) s).work = if 64 ≤ s.index + data.length then scrubbed alg s.work else s.work := by
  induction data generalizing s with
  | nil =>
    have hi := index_lt s
    rw [if_neg (by simp; omega)]; rfl
  | cons b l ih =>
    have hi := index_lt s
    rw [List.foldl_cons, ih, absorbByte_index, List.length_cons]
    by_cases h63 : s.index = 63
    · rw [absorbByte_full c alg s b h63, compress_work, setMem_work, countBytes_work, scrubbed_scrubbed, ite_self,
        if_pos (by omega)]
    · rw [absorbByte_short c alg s b h63, setMem_work, countBytes_work, Nat.mod_eq_of_lt (by omega)]
      by_cases h64 : 64 ≤ s.index + (l.length + 1)
      · rw [if_pos h64, if_pos (by omega)]
      · rw [if_neg h64, if_neg (by omega)]

/-- Addresses that are not of the buffer read as before. -/
theorem foldl_absorbByte_outside (c : Config) (alg : Alg) (data : List Byte) (s : State) (h : s.mem.wf) (p : Nat)
    (hp : c.bufsz ≤ p) : (data.foldl (absorbByte c alg) s).mem.read p = s.mem.read p := by
  induction data generalizing s with
  | nil => rfl
  | cons b l ih =>
    have hi := index_lt s
    have hw : (s.mem.write (c.hdr + s.index) b).read p = s.mem.read p := by
      rw [read_write h, if_neg (by rw [Config.bufsz] at hp; omega)]
    rw [List.foldl_cons, ih _ (absorbByte_wf h b), ← hw]
    by_cases h63 : s.index = 63
    · rw [absorbByte_full c alg s b h63, compress_read_outside _ _ _ _ hp]; rfl
    · rw [absorbByte_short c alg s b h63]; rfl

section Spec
variable (c : Config) (alg : Alg) (data : List Byte) (s : State) (hlen : data.length ≤ 65535)
include hlen

theorem absorb_wf (h : s.mem.wf) : (absorb c alg data s).mem.wf := by
  rw [absorb_eq_foldl c alg data s hlen]; exact foldl_absorbByte_wf data h

theorem absorb_within (h : s.mem.within c.bufsz) : (absorb c alg data s).mem.within c.bufsz := by
  rw [absorb_eq_foldl c alg data s hlen]; exact foldl_absorbByte_memWithin data h

/-- The words: the compression function folded over the whole blocks of what was buffered and the payload (R63). -/
theorem absorb_words (h : s.mem.wf) :
    (absorb c alg data s).words = foldMessage alg s.words (buffered c s ++ data) := by
  rw [absorb_eq_foldl c alg data s hlen]; exact (foldl_absorbByte_spec c alg data s h).1

/-- The buffered bytes: what follows the whole blocks (R63). -/
theorem absorb_buffered (h : s.mem.wf) :
    buffered c (absorb c alg data s) = remainder (buffered c s ++ data) := by
  rw [absorb_eq_foldl c alg data s hlen]; exact (foldl_absorbByte_spec c alg data s h).2

/-- After a compression, or from a clean buffer, everything else in the buffer is zero (R22 (d), R63). -/
theorem absorb_clean (h : s.mem.wf) (hc : 64 ≤ s.index + data.length ∨ cleanOutside c s) :
    cleanOutside c (absorb c alg data s) := by
  rw [absorb_eq_foldl c alg data s hlen]; exact foldl_absorbByte_clean c alg data s h hc

theorem absorb_work :
    (absorb c alg data s).work = if 64 ≤ s.index + data.length then scrubbed alg s.work else s.work := by
  rw [absorb_eq_foldl c alg data s hlen]; exact foldl_absorbByte_work c alg data s

theorem absorb_outside (h : s.mem.wf) (p : Nat) (hp : c.bufsz ≤ p) :
    (absorb c alg data s).mem.read p = s.mem.read p := by
  rw [absorb_eq_foldl c alg data s hlen]; exact foldl_absorbByte_outside c alg data s h p hp

omit hlen in
/-- Without a compression the payload is appended and every other byte stays (R63). -/
theorem absorb_append (h : s.index + data.length < 64) :
    absorb c alg data s = writeBlock c (countBytes s (lenWord data)) s.index data := by
  simp only [absorb]; rw [if_neg (by omega)]

theorem absorb_upperSame (h : s.mem.wf) : upperSame alg (absorb c alg data s).words s.words := by
  rw [absorb_words c alg data s hlen h, foldMessage]
  generalize blocks _ _ = bs
  generalize s.words = w
  induction bs generalizing w with
  | nil => exact upperSame_refl alg w
  | cons b bs ih => exact upperSame_trans (ih _) (blockFunction_upperSame alg w _)

end Spec

/-- Chunks absorbed one after the other are their concatenation absorbed at once (R73). -/
theorem absorb_absorb (c : Config) (alg : Alg) (d e : List Byte) (s : State) (h : d.length + e.length ≤ 65535) :
    absorb c alg e (absorb c alg d s) = absorb c alg (d ++ e) s := by
  rw [absorb_eq_foldl c alg d s (by omega), absorb_eq_foldl c alg e _ (by omega),
    absorb_eq_foldl c alg (d ++ e) s (by rw [List.length_append]; omega), List.foldl_append]

end Sys2Proof.Machine
end

