-- ==== Sys2Proof/Laws/Final.lean ====
section
/-! SUPPORT. What `Finalize` does (41_final.md rules R81 to R87, R94): the padded last blocks are those of R92, the digest
field is the text of the final words, and everything else is zero. Every lemma holds for every configuration that keeps the
standard order of the length words. -/

namespace Sys2Proof.Machine

open Sys2Proof.Reference
open Sys2Proof.Safety

theorem standard_standardOrder : Config.standardOrder Config.standard := fun _ => rfl

/-! ## Bytes of words and numbers -/

theorem bytesOf_le (x : Word) (v : Nat) (h : x.toNat = v % 2 ^ 32) : bytesOf .le x = littleEndian 4 v := by
  have hb (k : Nat) (u : Nat) (hu : x.toNat / 2 ^ k % 256 = u % 256) : x.extractLsb' k 8 = BitVec.ofNat 8 u := by
    apply BitVec.eq_of_toNat_eq
    rw [BitVec.extractLsb'_toNat, BitVec.toNat_ofNat, Nat.shiftRight_eq_div_pow]
    exact hu
  simp only [bytesOf, littleEndian, List.cons.injEq, and_true]
  exact ⟨hb _ _ (by omega), hb _ _ (by omega), hb _ _ (by omega), hb _ _ (by omega)⟩

theorem bytesOf_be (x : Word) : bytesOf .be x = (bytesOf .le x).reverse := rfl

theorem littleEndian_eight (v : Nat) : littleEndian 8 v = littleEndian 4 v ++ littleEndian 4 (v / 2 ^ 32) := by
  simp only [littleEndian, List.cons_append, List.nil_append, Nat.div_div_eq_div_mul]
  rfl

/-- The length field of R84, as the bytes of one 64-bit number. -/
theorem lengthWords_bytes (alg : Alg) (s : State) :
    bytesOf (wordOrder alg) (lengthWords (Config.standard.lenOrder alg) (countToBits s)).1 ++
      bytesOf (wordOrder alg) (lengthWords (Config.standard.lenOrder alg) (countToBits s)).2 =
    lengthField alg (8 * s.byteCount) := by
  have h := byteCountOf_bitCount s.countHi s.countLo
  have hlt := (bitCount s.countHi s.countLo).1.isLt
  have hlt' := (bitCount s.countHi s.countLo).2.isLt
  rw [byteCountOf] at h
  change _ = 8 * s.byteCount % 2 ^ 64 at h
  have hlo := bytesOf_le (bitCount s.countHi s.countLo).2 (8 * s.byteCount) (by omega)
  have hhi := bytesOf_le (bitCount s.countHi s.countLo).1 (8 * s.byteCount / 2 ^ 32) (by omega)
  have hle : bytesOf .le (bitCount s.countHi s.countLo).2 ++ bytesOf .le (bitCount s.countHi s.countLo).1 =
      littleEndian 8 (8 * s.byteCount) := by rw [hlo, hhi, littleEndian_eight]
  have hbe : bytesOf .be (bitCount s.countHi s.countLo).1 ++ bytesOf .be (bitCount s.countHi s.countLo).2 =
      bigEndian 8 (8 * s.byteCount) := by rw [bytesOf_be, bytesOf_be, ← List.reverse_append, hle, bigEndian]
  cases alg
  · exact hle
  · exact hbe
  · exact hbe
  · exact hle

theorem hexOfByte_eq (b : Byte) : hexOfByte b = [hexDigit (b.toNat / 16), hexDigit (b.toNat % 16)] := by
  have h : ∀ n, n < 256 → hexOfByte (BitVec.ofNat 8 n) = [hexDigit (n / 16), hexDigit (n % 16)] := by decide +kernel
  have := h b.toNat b.isLt
  rwa [BitVec.ofNat_toNat, BitVec.setWidth_eq] at this

theorem hexOfBytes_bytesOf_le (v : Word) : hexOfBytes (bytesOf .le v) =
    (List.range 4).flatMap fun j => [hexDigit (v.toNat / 256 ^ j % 256 / 16), hexDigit (v.toNat / 256 ^ j % 256 % 16)] := by
  have e (k : Nat) : (v.extractLsb' k 8).toNat = v.toNat / 2 ^ k % 256 := by
    rw [BitVec.extractLsb'_toNat, Nat.shiftRight_eq_div_pow]
  simp only [hexOfBytes, bytesOf, List.flatMap_cons, List.flatMap_nil, hexOfByte_eq, e]
  rfl

theorem hexOfBytes_bytesOf_be (v : Word) : hexOfBytes (bytesOf .be v) =
    (List.range 4).flatMap fun j =>
      [hexDigit (v.toNat / 256 ^ (3 - j) % 256 / 16), hexDigit (v.toNat / 256 ^ (3 - j) % 256 % 16)] := by
  have e (k : Nat) : (v.extractLsb' k 8).toNat = v.toNat / 2 ^ k % 256 := by
    rw [BitVec.extractLsb'_toNat, Nat.shiftRight_eq_div_pow]
  simp only [hexOfBytes, bytesOf, List.flatMap_cons, List.flatMap_nil, hexOfByte_eq, e]
  rfl

/-- The hex text of the raw digest is the digest text of the words (R85, R86). -/
theorem hexOfBytes_rawDigest (alg : Alg) (w : Words) : hexOfBytes (rawDigest alg w) = digestText alg w := by
  rw [hexOfBytes, rawDigest, List.flatMap_assoc, digestText]
  cases alg
  · exact congrArg (fun f => List.flatMap f _) (funext hexOfBytes_bytesOf_le)
  · exact congrArg (fun f => List.flatMap f _) (funext hexOfBytes_bytesOf_be)
  · exact congrArg (fun f => List.flatMap f _) (funext hexOfBytes_bytesOf_be)
  · exact congrArg (fun f => List.flatMap f _) (funext hexOfBytes_bytesOf_le)

theorem rawDigest_length (alg : Alg) (w : Words) : (rawDigest alg w).length = digestSize alg := by cases alg <;> rfl

theorem digestText_length (alg : Alg) (w : Words) : (digestText alg w).length = 2 * digestSize alg := by cases alg <;> rfl

theorem digestSize_le (alg : Alg) : 2 * digestSize alg ≤ 64 := by cases alg <;> decide

/-- Every character of a digest text is a lowercase hex digit (R86). -/
theorem digestText_isHex (alg : Alg) (w : Words) (b : Byte) (h : b ∈ digestText alg w) : isHexChar b := by
  rw [digestText, List.mem_flatMap] at h
  obtain ⟨v, -, h⟩ := h
  rw [List.mem_flatMap] at h
  obtain ⟨j, -, h⟩ := h
  have hlt : byteOfWord alg v j < 256 := by cases alg <;> exact Nat.mod_lt _ (by decide)
  rcases List.mem_cons.1 h with rfl | h
  · exact ⟨_, by omega, rfl⟩
  · obtain rfl := List.mem_singleton.1 h
    exact ⟨_, by omega, rfl⟩

/-! ## The padded blocks -/

theorem readBytes_writeBytes {m : Memory} (h : m.wf) (a k : Nat) (l : List Byte) :
    (m.writeBytes (a + k) l).readBytes a (k + l.length) = m.readBytes a k ++ l := by
  induction l generalizing m k with
  | nil => simp [writeBytes_nil]
  | cons b l ih =>
    have e := ih (write_wf h (a + k) b) (k + 1)
    rw [List.length_cons, writeBytes_cons, Nat.add_assoc a k 1, show k + (l.length + 1) = k + 1 + l.length by omega, e,
      readBytes_write h, List.append_assoc, List.singleton_append]

theorem readBytes_zero (m : Memory) (a n : Nat) (h : ∀ i, i < n → m.read (a + i) = 0#8) :
    m.readBytes a n = List.replicate n 0#8 := by
  apply List.eq_replicate_iff.2
  refine ⟨readBytes_length _ _ _, fun b hb => ?_⟩
  obtain ⟨i, hi, rfl⟩ := List.mem_map.1 hb
  exact h i (List.mem_range.1 hi)

theorem padMarker_wf {c : Config} {s : State} (h : s.mem.wf) : (padMarker c s).mem.wf := writeBytes_wf h _ _

/-- The block region after stage 1 (R81). -/
theorem padMarker_block (c : Config) (s : State) (h : s.mem.wf) :
    (padMarker c s).mem.readBytes c.hdr 64 = buffered c s ++ 0x80#8 :: List.replicate (63 - s.index) 0#8 := by
  have hi := index_lt s
  have e := readBytes_writeBytes h c.hdr s.index (0x80#8 :: List.replicate (63 - s.index) 0#8)
  rw [List.length_cons, List.length_replicate, show s.index + (63 - s.index + 1) = 64 by omega] at e
  exact e

theorem padMarker_block_short (c : Config) (s : State) (h : s.mem.wf) (h55 : s.index ≤ 55) :
    (padMarker c s).mem.readBytes c.hdr 56 = buffered c s ++ 0x80#8 :: List.replicate (55 - s.index) 0#8 := by
  have e := padMarker_block c s h
  have hr : List.replicate (63 - s.index) 0#8 = List.replicate (55 - s.index) 0#8 ++ List.replicate 8 0#8 := by
    rw [List.replicate_append_replicate]; congr 1; omega
  have h56 : (padMarker c s).mem.readBytes c.hdr 64 = (padMarker c s).mem.readBytes c.hdr 56 ++
      (List.range 8).map fun i => (padMarker c s).mem.read (c.hdr + (56 + i)) := by
    simp only [Memory.readBytes]
    rw [show (64 : Nat) = 56 + 8 from rfl, List.range_add, List.map_append, List.map_map]
    rfl
  rw [h56, hr, ← List.cons_append, ← List.append_assoc] at e
  refine (List.append_inj e ?_).1
  rw [readBytes_length, List.length_append, buffered_length, List.length_cons, List.length_replicate]
  omega

theorem storeLength_eq (c : Config) (alg : Alg) (s : State) (ho : c.standardOrder) :
    (storeLength c alg (countToBits s)).mem = s.mem.writeBytes (c.hdr + 56) (lengthField alg (8 * s.byteCount)) := by
  rw [← lengthWords_bytes alg s, writeBytes_append, bytesOf_length, ← ho alg]
  rfl

theorem lengthField_length (alg : Alg) (v : Nat) : (lengthField alg v).length = 8 := by cases alg <;> rfl

/-- The block region after stage 4 (R84). -/
theorem storeLength_block (c : Config) (alg : Alg) (s : State) (ho : c.standardOrder) (h : s.mem.wf) :
    (storeLength c alg (countToBits s)).mem.readBytes c.hdr 64 =
      s.mem.readBytes c.hdr 56 ++ lengthField alg (8 * s.byteCount) := by
  have e := readBytes_writeBytes h c.hdr 56 (lengthField alg (8 * s.byteCount))
  rw [lengthField_length] at e
  rw [storeLength_eq c alg s ho]
  exact e

theorem padMarker_byteCount (c : Config) (s : State) : (padMarker c s).byteCount = s.byteCount := rfl

theorem compress_byteCount (c : Config) (alg : Alg) (s : State) : (compress c alg s).byteCount = s.byteCount := by
  rw [State.byteCount, State.byteCount, compress_countHi, compress_countLo]

theorem padSpill_wf {c : Config} {alg : Alg} {s : State} (h : s.mem.wf) : (padSpill c alg s).mem.wf := by
  rw [padSpill]; split
  · exact compress_wf h
  · exact h

theorem storeLength_wf {c : Config} {alg : Alg} {s : State} (h : s.mem.wf) : (storeLength c alg s).mem.wf :=
  storeWord_wf (storeWord_wf h _ _ _) _ _ _

theorem closeBlocks_wf {c : Config} {alg : Alg} {s : State} (h : s.mem.wf) : (closeBlocks c alg s).mem.wf :=
  compress_wf (storeLength_wf (padSpill_wf (padMarker_wf h)))

@[simp] theorem storeLength_words (c : Config) (alg : Alg) (s : State) :
    (storeLength c alg (countToBits s)).words = s.words := rfl

/-- The words after the last compression: the buffered bytes and the padding of R92, folded. -/
theorem closeBlocks_words (c : Config) (alg : Alg) (s : State) (ho : c.standardOrder) (h : s.mem.wf) :
    (closeBlocks c alg s).words = foldMessage alg s.words (buffered c s ++ padding alg s.byteCount) := by
  have hi := index_lt s
  have hx : s.byteCount % 64 = s.index := (index_eq_byteCount s).symm
  have hw := padMarker_wf (c := c) h
  rw [closeBlocks, compress_words, loadBlock_eq_blockWords, storeLength_block c alg _ ho (padSpill_wf hw), storeLength_words,
    padding, padZeros, hx]
  by_cases h56 : 56 ≤ s.index
  · have hp : padSpill c alg (padMarker c s) = compress c alg (padMarker c s) := if_pos h56
    have hz : (119 - s.index) % 64 = (63 - s.index) + 56 := by omega
    have h1 : (buffered c s ++ 0x80#8 :: List.replicate (63 - s.index) 0#8).length = 64 := by
      rw [List.length_append, buffered_length, List.length_cons, List.length_replicate]; omega
    have h2 : (List.replicate 56 0#8 ++ lengthField alg (8 * s.byteCount)).length = 64 := by
      rw [List.length_append, List.length_replicate, lengthField_length]
    rw [hp, readBytes_zero _ _ _ fun i hi => compress_read _ _ _ _ (by rw [Config.bufsz]; omega), compress_byteCount,
      padMarker_byteCount, compress_words, loadBlock_eq_blockWords, padMarker_block c s h, hz,
      ← List.replicate_append_replicate, show buffered c s ++
        (0x80#8 :: (List.replicate (63 - s.index) 0#8 ++ List.replicate 56 0#8) ++ lengthField alg (8 * s.byteCount)) =
        (buffered c s ++ 0x80#8 :: List.replicate (63 - s.index) 0#8) ++
          ((List.replicate 56 0#8 ++ lengthField alg (8 * s.byteCount)) ++ []) by simp,
      foldMessage_block _ _ _ _ h1, foldMessage_block _ _ _ _ h2, foldMessage_short _ _ _ (by simp)]
    rfl
  · have hp : padSpill c alg (padMarker c s) = padMarker c s := if_neg h56
    have hz : (119 - s.index) % 64 = 55 - s.index := by omega
    have h1 : (buffered c s ++ 0x80#8 :: List.replicate (55 - s.index) 0#8 ++
        lengthField alg (8 * s.byteCount)).length = 64 := by
      rw [List.length_append, List.length_append, buffered_length, List.length_cons, List.length_replicate,
        lengthField_length]
      omega
    rw [hp, padMarker_byteCount, padMarker_block_short c s h (by omega), hz, show buffered c s ++
        (0x80#8 :: List.replicate (55 - s.index) 0#8 ++ lengthField alg (8 * s.byteCount)) =
        (buffered c s ++ 0x80#8 :: List.replicate (55 - s.index) 0#8 ++ lengthField alg (8 * s.byteCount)) ++ [] by simp,
      foldMessage_block _ _ _ _ h1, foldMessage_short _ _ _ (by simp)]
    rfl

/-! ## The state after `Finalize` -/

@[simp] theorem padSpill_work (c : Config) (alg : Alg) (s : State) :
    scrubbed alg (padSpill c alg s).work = scrubbed alg s.work := by
  rw [padSpill]; split
  · rw [compress_work, scrubbed_scrubbed]
  · rfl

theorem finalize_words (c : Config) (alg : Alg) (s : State) : (finalize c alg s).words = Words.zero := rfl
theorem finalize_countLo (c : Config) (alg : Alg) (s : State) : (finalize c alg s).countLo = 0 := rfl
theorem finalize_countHi (c : Config) (alg : Alg) (s : State) : (finalize c alg s).countHi = 0 := rfl
theorem finalize_phase (c : Config) (alg : Alg) (s : State) : (finalize c alg s).phase = .idle := rfl

theorem emitDigest_work (c : Config) (alg : Alg) (s : State) : (emitDigest c alg s).work = s.work := rfl
theorem emitDigest_creq (c : Config) (alg : Alg) (s : State) : (emitDigest c alg s).creq = s.creq := rfl
theorem emitDigest_pending (c : Config) (alg : Alg) (s : State) : (emitDigest c alg s).pending = s.pending := rfl
theorem emitDigest_received (c : Config) (alg : Alg) (s : State) : (emitDigest c alg s).received = s.received := rfl

theorem storeLength_creq (c : Config) (alg : Alg) (s : State) : (storeLength c alg (countToBits s)).creq = s.creq := rfl
theorem storeLength_pending (c : Config) (alg : Alg) (s : State) :
    (storeLength c alg (countToBits s)).pending = s.pending := rfl
theorem storeLength_received (c : Config) (alg : Alg) (s : State) :
    (storeLength c alg (countToBits s)).received = s.received := rfl
theorem storeLength_work (c : Config) (alg : Alg) (s : State) : (storeLength c alg (countToBits s)).work = s.work := rfl

theorem padSpill_creq (c : Config) (alg : Alg) (s : State) : (padSpill c alg s).creq = s.creq := by
  rw [padSpill]; split
  · rw [compress_creq]
  · rfl
theorem padSpill_pending (c : Config) (alg : Alg) (s : State) : (padSpill c alg s).pending = s.pending := by
  rw [padSpill]; split
  · rw [compress_pending]
  · rfl
theorem padSpill_received (c : Config) (alg : Alg) (s : State) : (padSpill c alg s).received = s.received := by
  rw [padSpill]; split
  · rw [compress_received]
  · rfl

theorem finalize_work (c : Config) (alg : Alg) (s : State) : (finalize c alg s).work = scrubbed alg s.work := by
  rw [finalize, emitDigest_work, closeBlocks, compress_work, storeLength_work, padSpill_work]; rfl
theorem finalize_creq (c : Config) (alg : Alg) (s : State) : (finalize c alg s).creq = s.creq := by
  rw [finalize, emitDigest_creq, closeBlocks, compress_creq, storeLength_creq, padSpill_creq]; rfl
theorem finalize_pending (c : Config) (alg : Alg) (s : State) : (finalize c alg s).pending = s.pending := by
  rw [finalize, emitDigest_pending, closeBlocks, compress_pending, storeLength_pending, padSpill_pending]; rfl
theorem finalize_received (c : Config) (alg : Alg) (s : State) : (finalize c alg s).received = s.received := by
  rw [finalize, emitDigest_received, closeBlocks, compress_received, storeLength_received, padSpill_received]; rfl

theorem emitDigest_mem (c : Config) (alg : Alg) (s : State) :
    (emitDigest c alg s).mem = ((s.mem.writeBytes 0 (rawDigest alg s.words)).writeBytes 0 (digestText alg s.words)).zeroFill
      (2 * digestSize alg) (c.bufsz - 2 * digestSize alg) := by
  rw [← rawDigest_length alg s.words, ← hexOfBytes_rawDigest]; rfl

/-- The bytes of the buffer after stages 5 to 7 (R86): the digest text, then zeros. -/
theorem emitDigest_read (c : Config) (alg : Alg) (s : State) (h : s.mem.wf) (p : Nat) (hp : p < c.bufsz) :
    (emitDigest c alg s).mem.read p = (digestText alg s.words).getD p 0 := by
  have hd := digestSize_le alg
  have hb : 64 ≤ c.bufsz := by rw [Config.bufsz]; omega
  rw [emitDigest_mem, read_zeroFill, read_writeBytes (writeBytes_wf h _ _), digestText_length]
  by_cases hlt : p < 2 * digestSize alg
  · rw [if_neg (by omega), if_pos (by omega), Nat.sub_zero]
  · rw [if_pos (by omega), List.getD_eq_default _ _ (by rw [digestText_length]; omega)]
    rfl

theorem emitDigest_wf {c : Config} {alg : Alg} {s : State} (h : s.mem.wf) : (emitDigest c alg s).mem.wf := by
  rw [emitDigest_mem]; exact zeroFill_wf (writeBytes_wf (writeBytes_wf h _ _) _ _) _ _

theorem emitDigest_within {c : Config} {alg : Alg} {s : State} (h : s.mem.within c.bufsz) :
    (emitDigest c alg s).mem.within c.bufsz := by
  have hd := digestSize_le alg
  have hb : 64 ≤ c.bufsz := by rw [Config.bufsz]; omega
  rw [emitDigest_mem]
  refine zeroFill_within (writeBytes_within (writeBytes_within h _ ?_) _ ?_) _ _
  · rw [rawDigest_length]; omega
  · rw [digestText_length]; omega

theorem padMarker_within {c : Config} {s : State} (h : s.mem.within c.bufsz) : (padMarker c s).mem.within c.bufsz := by
  have hi := index_lt s
  refine writeBytes_within h _ ?_
  rw [List.length_cons, List.length_replicate, Config.bufsz]; omega

theorem padSpill_within {c : Config} {alg : Alg} {s : State} (h : s.mem.within c.bufsz) :
    (padSpill c alg s).mem.within c.bufsz := by
  rw [padSpill]; split
  · rw [compress_mem]; exact zeroFill_within h _ _
  · exact h

theorem storeLength_within {c : Config} {alg : Alg} {s : State} (h : s.mem.within c.bufsz) :
    (storeLength c alg s).mem.within c.bufsz := by
  exact storeWord_within (storeWord_within h _ _ (by rw [Config.bufsz]; omega)) _ _ (by rw [Config.bufsz])

theorem closeBlocks_within {c : Config} {alg : Alg} {s : State} (h : s.mem.within c.bufsz) :
    (closeBlocks c alg s).mem.within c.bufsz := by
  rw [closeBlocks, compress_mem]
  exact zeroFill_within (storeLength_within (s := countToBits _) (padSpill_within (padMarker_within h))) _ _

theorem finalize_wf {c : Config} {alg : Alg} {s : State} (h : s.mem.wf) : (finalize c alg s).mem.wf :=
  emitDigest_wf (closeBlocks_wf h)

theorem finalize_within {c : Config} {alg : Alg} {s : State} (h : s.mem.within c.bufsz) :
    (finalize c alg s).mem.within c.bufsz := emitDigest_within (closeBlocks_within h)

/-- The buffer after `Finalize` (R92, R93): the digest text of the buffered bytes and their padding, then zeros. -/
theorem finalize_read (c : Config) (alg : Alg) (s : State) (ho : c.standardOrder) (h : s.mem.wf) (p : Nat)
    (hp : p < c.bufsz) : (finalize c alg s).mem.read p =
      (digestText alg (foldMessage alg s.words (buffered c s ++ padding alg s.byteCount))).getD p 0 := by
  rw [finalize, emitDigest_read c alg _ (closeBlocks_wf h) p hp, closeBlocks_words c alg s ho h]

/-- Addresses that are not of the buffer read as before. -/
theorem finalize_outside (c : Config) (alg : Alg) (s : State) (h : s.mem.wf) (p : Nat) (hp : c.bufsz ≤ p) :
    (finalize c alg s).mem.read p = s.mem.read p := by
  have hi := index_lt s
  have hd := digestSize_le alg
  have hb : c.bufsz = c.hdr + 64 := rfl
  have h1 : (padMarker c s).mem.read p = s.mem.read p := by
    change (s.mem.writeBytes _ _).read p = _
    rw [read_writeBytes h, if_neg (by rw [List.length_cons, List.length_replicate]; omega)]
  have h2 : (padSpill c alg (padMarker c s)).mem.read p = s.mem.read p := by
    rw [padSpill]; split
    · rw [compress_read_outside _ _ _ _ hp, h1]
    · exact h1
  have hw : (countToBits (padSpill c alg (padMarker c s))).mem.wf := padSpill_wf (padMarker_wf h)
  have h3 : (closeBlocks c alg s).mem.read p = s.mem.read p := by
    rw [closeBlocks, compress_read_outside _ _ _ _ hp]
    change ((Memory.storeWord _ _ _ _).storeWord _ _ _).read p = _
    rw [read_storeWord (storeWord_wf hw _ _ _), if_neg (by omega), read_storeWord hw, if_neg (by omega)]
    exact h2
  have hc := closeBlocks_wf (c := c) (alg := alg) h
  rw [finalize, emitDigest_mem, read_zeroFill, if_neg (by omega), read_writeBytes (writeBytes_wf hc _ _),
    if_neg (by rw [digestText_length]; omega), read_writeBytes hc, if_neg (by rw [rawDigest_length]; omega), h3]

/-- A message continued: the whole blocks first, then what was left over and the rest. -/
theorem foldMessage_append (alg : Alg) (w : Words) (d e : List Byte) :
    foldMessage alg w (d ++ e) = foldMessage alg (foldMessage alg w d) (remainder d ++ e) := by
  induction hn : d.length / 64 generalizing d w with
  | zero =>
    have hd : d.length < 64 := by omega
    rw [foldMessage_short alg w d hd, remainder_short d hd]
  | succ n ih =>
    have hb : (d.take 64).length = 64 := by rw [List.length_take]; omega
    have hr : (d.drop 64).length / 64 = n := by rw [List.length_drop]; omega
    have h := ih (blockFunction alg w (blockWords (wordOrder alg) (d.take 64))) (d.drop 64) hr
    conv => lhs; rw [← List.take_append_drop 64 d, List.append_assoc, foldMessage_block _ _ _ _ hb, h]
    conv => rhs; rw [← List.take_append_drop 64 d, foldMessage_block _ _ _ _ hb, remainder_block _ _ hb]

theorem remainder_length (d : List Byte) : (remainder d).length = d.length % 64 := by
  rw [remainder, List.length_drop]; omega

/-- What is left over of a message continued. -/
theorem remainder_append (d e : List Byte) : remainder (remainder d ++ e) = remainder (d ++ e) := by
  induction hn : d.length / 64 generalizing d with
  | zero => rw [remainder_short d (by omega)]
  | succ n ih =>
    have hb : (d.take 64).length = 64 := by rw [List.length_take]; omega
    have hr : (d.drop 64).length / 64 = n := by rw [List.length_drop]; omega
    have h := ih (d.drop 64) hr
    conv => lhs; rw [← List.take_append_drop 64 d, remainder_block _ _ hb, h]
    conv => rhs; rw [← List.take_append_drop 64 d, List.append_assoc, remainder_block _ _ hb]

end Sys2Proof.Machine
end

