-- ==== Sys2Proof/Laws/Exec.lean ====
section
/-! SUPPORT. The meanings by algorithm, the contract checks (60_exceptions.md rule R192), the fields of an encoded word, and
one lemma for each thing a step can find to do. -/

namespace Sys2Proof.Machine

open Sys2Proof.Reference
open Sys2Proof.Safety

theorem exec_init (alg : Alg) (s : State) : exec (.init alg) s = .next (beginWith alg (initialWords alg) s) := by
  cases alg <;> rfl

theorem exec_update (alg : Alg) (data : List Byte) (s : State) :
    exec (.update alg data) s = update Config.standard alg data s := by cases alg <;> rfl

theorem exec_final (alg : Alg) (s : State) : exec (.final alg) s = finish Config.standard alg s := by cases alg <;> rfl

theorem exec_compress (alg : Alg) (s : State) : exec (.compress alg) s = .next (runCore Config.standard alg s) := by
  cases alg <;> rfl

/-! ## The contract -/

theorem phaseCheck_active {alg : Alg} {s : State} (h : s.phase = .active alg) : phaseCheck alg s = none := by
  rw [phaseCheck, h]; exact if_pos rfl

theorem phaseCheck_idle {alg : Alg} {s : State} (h : s.phase = .idle) : phaseCheck alg s = some .noComputation := by
  rw [phaseCheck, h]

theorem phaseCheck_other {alg a : Alg} {s : State} (h : s.phase = .active a) (ha : a ≠ alg) :
    phaseCheck alg s = some .algorithmMismatch := by
  rw [phaseCheck, h]; exact if_neg ha

theorem ceilingCheck_within {c : Config} {n : Nat} {s : State} (h : s.byteCount + n ≤ c.maxBytes) :
    ceilingCheck c n s = none := if_pos h

theorem ceilingCheck_over {c : Config} {n : Nat} {s : State} (h : c.maxBytes < s.byteCount + n) :
    ceilingCheck c n s = some .byteCeiling := if_neg (by omega)

/-- Inside the contract `UPDATE` completes (R60). -/
theorem update_completes {c : Config} {alg : Alg} {data : List Byte} {s : State} (h : s.phase = .active alg)
    (hc : s.byteCount + data.length ≤ c.maxBytes) : update c alg data s = .next (absorb c alg data s) := by
  rw [update, phaseCheck_active h, ceilingCheck_within hc]; rfl

theorem update_idle {c : Config} {alg : Alg} {data : List Byte} {s : State} (h : s.phase = .idle) :
    update c alg data s = .refused .noComputation := by rw [update, phaseCheck_idle h]; rfl

theorem update_other {c : Config} {alg a : Alg} {data : List Byte} {s : State} (h : s.phase = .active a) (ha : a ≠ alg) :
    update c alg data s = .refused .algorithmMismatch := by rw [update, phaseCheck_other h ha]; rfl

theorem update_over {c : Config} {alg : Alg} {data : List Byte} {s : State} (h : s.phase = .active alg)
    (hc : c.maxBytes < s.byteCount + data.length) : update c alg data s = .refused .byteCeiling := by
  rw [update, phaseCheck_active h, ceilingCheck_over hc]; rfl

/-- Everything `UPDATE` can do. -/
theorem update_cases (c : Config) (alg : Alg) (data : List Byte) (s : State) :
    (s.phase = .idle ∧ update c alg data s = .refused .noComputation) ∨
    ((∃ a, s.phase = .active a ∧ a ≠ alg) ∧ update c alg data s = .refused .algorithmMismatch) ∨
    (s.phase = .active alg ∧ c.maxBytes < s.byteCount + data.length ∧ update c alg data s = .refused .byteCeiling) ∨
    (s.phase = .active alg ∧ s.byteCount + data.length ≤ c.maxBytes ∧
      update c alg data s = .next (absorb c alg data s)) := by
  cases h : s.phase with
  | idle => exact .inl ⟨rfl, update_idle h⟩
  | active a =>
    by_cases ha : a = alg
    · subst ha
      rcases Nat.lt_or_ge c.maxBytes (s.byteCount + data.length) with hc | hc
      · exact .inr (.inr (.inl ⟨rfl, hc, update_over h hc⟩))
      · exact .inr (.inr (.inr ⟨rfl, hc, update_completes h hc⟩))
    · exact .inr (.inl ⟨⟨a, rfl, ha⟩, update_other h ha⟩)

/-- Inside the contract `FINAL` completes (R80). -/
theorem finish_completes {c : Config} {alg : Alg} {s : State} (h : s.phase = .active alg) :
    finish c alg s = .next (finalize c alg s) := by rw [finish, phaseCheck_active h]; rfl

theorem finish_idle {c : Config} {alg : Alg} {s : State} (h : s.phase = .idle) :
    finish c alg s = .refused .noComputation := by rw [finish, phaseCheck_idle h]; rfl

theorem finish_other {c : Config} {alg a : Alg} {s : State} (h : s.phase = .active a) (ha : a ≠ alg) :
    finish c alg s = .refused .algorithmMismatch := by rw [finish, phaseCheck_other h ha]; rfl

/-- Everything `FINAL` can do. -/
theorem finish_cases (c : Config) (alg : Alg) (s : State) :
    (s.phase = .idle ∧ finish c alg s = .refused .noComputation) ∨
    ((∃ a, s.phase = .active a ∧ a ≠ alg) ∧ finish c alg s = .refused .algorithmMismatch) ∨
    (s.phase = .active alg ∧ finish c alg s = .next (finalize c alg s)) := by
  cases h : s.phase with
  | idle => exact .inl ⟨rfl, finish_idle h⟩
  | active a =>
    by_cases ha : a = alg
    · subst ha
      exact .inr (.inr ⟨rfl, finish_completes h⟩)
    · exact .inr (.inl ⟨⟨a, rfl, ha⟩, finish_other h ha⟩)

/-- Every instruction is an operation of an algorithm. -/
theorem instr_cases (i : Instr) :
    (∃ alg, i = .init alg) ∨ (∃ alg d, i = .update alg d) ∨ (∃ alg, i = .final alg) ∨ ∃ alg, i = .compress alg := by
  cases i
  case md5Init => exact .inl ⟨.md5, rfl⟩
  case sha1Init => exact .inl ⟨.sha1, rfl⟩
  case sha256Init => exact .inl ⟨.sha256, rfl⟩
  case rmd160Init => exact .inl ⟨.rmd160, rfl⟩
  case md5Update d => exact .inr (.inl ⟨.md5, d, rfl⟩)
  case sha1Update d => exact .inr (.inl ⟨.sha1, d, rfl⟩)
  case sha256Update d => exact .inr (.inl ⟨.sha256, d, rfl⟩)
  case rmd160Update d => exact .inr (.inl ⟨.rmd160, d, rfl⟩)
  case md5Final => exact .inr (.inr (.inl ⟨.md5, rfl⟩))
  case sha1Final => exact .inr (.inr (.inl ⟨.sha1, rfl⟩))
  case sha256Final => exact .inr (.inr (.inl ⟨.sha256, rfl⟩))
  case rmd160Final => exact .inr (.inr (.inl ⟨.rmd160, rfl⟩))
  case md5Compress => exact .inr (.inr (.inr ⟨.md5, rfl⟩))
  case sha1Compress => exact .inr (.inr (.inr ⟨.sha1, rfl⟩))
  case sha256Compress => exact .inr (.inr (.inr ⟨.sha256, rfl⟩))
  case rmd160Compress => exact .inr (.inr (.inr ⟨.rmd160, rfl⟩))

/-! ## Fields of an encoded word -/

theorem low_append (n : BitVec 16) (l : BitVec 16) (k w : Nat) (h : k + w ≤ 16) :
    (n ++ l : BitVec 32).extractLsb' k w = l.extractLsb' k w := by
  ext i hi
  simp only [BitVec.getElem_extractLsb', BitVec.getLsbD_append]
  rw [if_pos (by omega)]

theorem lenField_append (n l : BitVec 16) : lenField (n ++ l) = n := by
  ext i hi
  simp only [lenField, BitVec.getElem_extractLsb', BitVec.getLsbD_append]
  rw [if_neg (by omega), Nat.add_sub_cancel_left, BitVec.getLsbD_eq_getElem hi]

theorem opField_append (n : BitVec 16) (alg : Alg) (op : BitVec 2) : opField (n ++ lowHalf alg op) = op := by
  rw [opField, low_append _ _ _ _ (by omega)]
  revert op; cases alg <;> decide

theorem algField_append (n : BitVec 16) (alg : Alg) (op : BitVec 2) : algField (n ++ lowHalf alg op) = algCode alg := by
  rw [algField, low_append _ _ _ _ (by omega)]
  revert op; cases alg <;> decide

theorem rsvField_append (n : BitVec 16) (alg : Alg) (op : BitVec 2) : rsvField (n ++ lowHalf alg op) = 0#12 := by
  rw [rsvField, low_append _ _ _ _ (by omega)]
  revert op; cases alg <;> decide

theorem algOfCode_algCode (alg : Alg) : algOfCode (algCode alg) = alg := by cases alg <;> rfl

theorem algCode_algOfCode (code : BitVec 2) : algCode (algOfCode code) = code := by revert code; decide

/-! ## What a step finds to do -/

theorem step_request {s : State} {code : BitVec 2} (h : s.creq = some code) :
    step s = exec (decodeRequest code) (s.setCreq none) := by rw [step, fetch, h]

theorem step_idle {s : State} (h : s.creq = none) (hp : s.pending = []) : step s = .next s := by rw [step, fetch, h, hp]

theorem step_reset {s : State} {rest : List HostInput} (h : s.creq = none) (hp : s.pending = .reset :: rest) :
    step s = .next (resetCore (s.setPending rest)) := by rw [step, fetch, h, hp]; rfl

theorem step_read {s : State} {a : BitVec 7} {rest : List HostInput} (h : s.creq = none)
    (hp : s.pending = .read a :: rest) : step s = readPort Config.standard a.toNat (s.setPending rest) := by
  rw [step, fetch, h, hp]; rfl

theorem step_command {s : State} {w : Word} {d : List Byte} {rest : List HostInput} {i : Instr} (h : s.creq = none)
    (hp : s.pending = .command w d :: rest) (hd : decodeCommand w d = .ok i) : step s = exec i (s.setPending rest) := by
  simp only [step, fetch, h, hp, fetchInput, hd]

theorem step_reserved {s : State} {w : Word} {d : List Byte} {rest : List HostInput} (h : s.creq = none)
    (hp : s.pending = .command w d :: rest) (hd : decodeCommand w d = .error .reservedEncoding) :
    step s = .refused .reservedEncoding := by
  simp only [step, fetch, h, hp, fetchInput, hd]

theorem step_payload {s : State} {w : Word} {d : List Byte} {rest : List HostInput} (h : s.creq = none)
    (hp : s.pending = .command w d :: rest) (hd : decodeCommand w d = .error .payloadLength) :
    step s = .fault .payloadLength := by
  simp only [step, fetch, h, hp, fetchInput, hd]

/-- Everything a step can do. -/
theorem step_cases (s : State) :
    (∃ code, s.creq = some code ∧ step s = exec (decodeRequest code) (s.setCreq none)) ∨
    (s.creq = none ∧ s.pending = [] ∧ step s = .next s) ∨
    (∃ rest, s.creq = none ∧ s.pending = .reset :: rest ∧ step s = .next (resetCore (s.setPending rest))) ∨
    (∃ a rest, s.creq = none ∧ s.pending = .read a :: rest ∧
      step s = readPort Config.standard a.toNat (s.setPending rest)) ∨
    (∃ w d rest i, s.creq = none ∧ s.pending = .command w d :: rest ∧ decodeCommand w d = .ok i ∧
      step s = exec i (s.setPending rest)) ∨
    (∃ w d rest, s.creq = none ∧ s.pending = .command w d :: rest ∧ decodeCommand w d = .error .reservedEncoding ∧
      step s = .refused .reservedEncoding) ∨
    (∃ w d rest, s.creq = none ∧ s.pending = .command w d :: rest ∧ decodeCommand w d = .error .payloadLength ∧
      step s = .fault .payloadLength) := by
  cases h : s.creq with
  | some code => exact .inl ⟨code, rfl, step_request h⟩
  | none =>
    right
    cases hp : s.pending with
    | nil => exact .inl ⟨rfl, rfl, step_idle h hp⟩
    | cons q rest =>
      right
      cases q with
      | reset => exact .inl ⟨rest, rfl, rfl, step_reset h hp⟩
      | read a => exact .inr (.inl ⟨a, rest, rfl, rfl, step_read h hp⟩)
      | command w d =>
        right; right
        cases hd : decodeCommand w d with
        | ok i => exact .inl ⟨w, d, rest, i, rfl, rfl, hd, step_command h hp hd⟩
        | error e =>
          right
          cases e with
          | reservedEncoding => exact .inl ⟨w, d, rest, rfl, rfl, hd, step_reserved h hp hd⟩
          | payloadLength => exact .inr ⟨w, d, rest, rfl, rfl, hd, step_payload h hp hd⟩

theorem readPort_inside {c : Config} {a : Nat} {s : State} (h : a < c.bufsz) :
    readPort c a s = .next (s.setReceived (s.received ++ [s.mem.read a])) := if_pos h

theorem readPort_outside {c : Config} {a : Nat} {s : State} (h : c.bufsz ≤ a) :
    readPort c a s = .refused .readOutsideBuffer := if_neg (by omega)

end Sys2Proof.Machine
end

