-- ==== Sys2Proof/Laws/PerInstr.lean ====
section
/-! SUPPORT. What every instruction's encoding keeps to, one lemma per constructor. Family `Carrier`: a host command is
carried by a word whose `rsv` field is 0, whose `len` field is the payload's length modulo 65536, and which is followed by
the instruction's payload (30_encoding.md rules R41, R42, R44, R54); a compression is carried by a request code (R43). -/

namespace Sys2Proof.Laws.Carrier

/-- The encoding carries the payload, with `rsv = 0` and `len` the payload's length. -/
def Statement (i : Instr) : Prop :=
  match encode i with
  | .command w p => p = i.payload ∧ rsvField w = 0#12 ∧ lenField w = BitVec.ofNat 16 i.payload.length
  | .request _ => i.payload = []

theorem lenField_encodeU (n l : BitVec 16) : lenField (n ++ l) = n := by
  ext i hi
  simp only [lenField, BitVec.getElem_extractLsb', BitVec.getLsbD_append]
  rw [if_neg (by omega), Nat.add_sub_cancel_left, BitVec.getLsbD_eq_getElem hi]

theorem rsvField_encodeU (n l : BitVec 16) (h : l.extractLsb' 4 12 = 0#12) : rsvField (n ++ l) = 0#12 := by
  rw [← h]
  ext i hi
  simp only [rsvField, BitVec.getElem_extractLsb', BitVec.getLsbD_append]
  rw [if_pos (by omega)]

theorem md5Init : Statement .md5Init := ⟨rfl, by decide, by decide⟩
theorem sha1Init : Statement .sha1Init := ⟨rfl, by decide, by decide⟩
theorem sha256Init : Statement .sha256Init := ⟨rfl, by decide, by decide⟩
theorem rmd160Init : Statement .rmd160Init := ⟨rfl, by decide, by decide⟩
theorem md5Update (data : List Byte) : Statement (.md5Update data) :=
  ⟨rfl, rsvField_encodeU _ _ (by decide), lenField_encodeU _ _⟩
theorem sha1Update (data : List Byte) : Statement (.sha1Update data) :=
  ⟨rfl, rsvField_encodeU _ _ (by decide), lenField_encodeU _ _⟩
theorem sha256Update (data : List Byte) : Statement (.sha256Update data) :=
  ⟨rfl, rsvField_encodeU _ _ (by decide), lenField_encodeU _ _⟩
theorem rmd160Update (data : List Byte) : Statement (.rmd160Update data) :=
  ⟨rfl, rsvField_encodeU _ _ (by decide), lenField_encodeU _ _⟩
theorem md5Final : Statement .md5Final := ⟨rfl, by decide, by decide⟩
theorem sha1Final : Statement .sha1Final := ⟨rfl, by decide, by decide⟩
theorem sha256Final : Statement .sha256Final := ⟨rfl, by decide, by decide⟩
theorem rmd160Final : Statement .rmd160Final := ⟨rfl, by decide, by decide⟩
theorem md5Compress : Statement .md5Compress := rfl
theorem sha1Compress : Statement .sha1Compress := rfl
theorem sha256Compress : Statement .sha256Compress := rfl
theorem rmd160Compress : Statement .rmd160Compress := rfl

end Sys2Proof.Laws.Carrier
end

