-- ==== Sys2Proof/Laws/Run.lean ====
section
/-! SUPPORT. Runs of many steps (Host/Core.lean's `run`), the encodings by algorithm, and the values of the standard
configuration as rewriting lemmas. -/

namespace Sys2Proof.Machine

theorem run_zero (s : State) : Sys2Proof.core.run 0 s = .next s := rfl

theorem run_next {n : Nat} {s t : State} (h : step s = .next t) :
    Sys2Proof.core.run (n + 1) s = Sys2Proof.core.run n t := by
  have h' : Sys2Proof.core.step s = .next t := h
  simp only [Host.Core.run, h']

theorem run_refused {n : Nat} {s : State} {r : Refusal} (h : step s = .refused r) :
    Sys2Proof.core.run (n + 1) s = .refused r := by
  have h' : Sys2Proof.core.step s = .refused r := h
  simp only [Host.Core.run, h']

theorem run_fault {n : Nat} {s : State} {r : Fault} (h : step s = .fault r) :
    Sys2Proof.core.run (n + 1) s = .fault r := by
  have h' : Sys2Proof.core.step s = .fault r := h
  simp only [Host.Core.run, h']

/-- A run cut in two. -/
theorem run_append {k : Nat} (n : Nat) {s t : State} (h : Sys2Proof.core.run k s = .next t) :
    Sys2Proof.core.run (k + n) s = Sys2Proof.core.run n t := by
  induction k generalizing s with
  | zero => cases h; rw [Nat.zero_add]
  | succ k ih =>
    cases hs : step s with
    | next u => rw [run_next hs] at h; rw [Nat.succ_add, run_next hs, ih h]
    | fault r => rw [run_fault hs] at h; cases h
    | refused r => rw [run_refused hs] at h; cases h

theorem standard_maxBytes : Config.standard.maxBytes = 2 ^ 53 := rfl
theorem standard_hdr : Config.standard.hdr = 4 := rfl
theorem standard_bufsz : Config.standard.bufsz = 68 := rfl

theorem encode_init (alg : Alg) : encode (.init alg) = .command (0#16 ++ lowHalf alg 0#2) [] := by cases alg <;> rfl
theorem encode_update (alg : Alg) (d : List Byte) :
    encode (.update alg d) = .command (BitVec.ofNat 16 d.length ++ lowHalf alg 1#2) d := by cases alg <;> rfl
theorem encode_final (alg : Alg) : encode (.final alg) = .command (0#16 ++ lowHalf alg 2#2) [] := by cases alg <;> rfl
theorem encode_compress (alg : Alg) : encode (.compress alg) = .request (algCode alg) := by cases alg <;> rfl

end Sys2Proof.Machine
end

