-- ==== Sys2Proof/Tests/Slice0.lean ====
section
/-! SUPPORT. Tests: the words of 30_encoding.md and 95_test_vectors.md section 2.8 decode as the spec says, one step of
every instruction gives the value the spec's vectors print (95_test_vectors.md, the id is in each comment), and for every
statement with hypotheses a concrete input that meets them (`witness_…`). -/

set_option Elab.async false

namespace Sys2Proof.Tests

open Sys2Proof.Machine
open Sys2Proof.Reference
open Sys2Proof.Safety

/-! ## Helpers -/

/-- The outcome is a next state with the property. -/
def nextIs (o : Host.Outcome State Fault Refusal) (p : State → Bool) : Bool :=
  match o with
  | .next t => p t
  | .fault _ => false
  | .refused _ => false

/-- The outcome is a refusal for the reason. -/
def refusedFor (o : Host.Outcome State Fault Refusal) (r : Refusal) : Bool :=
  match o with
  | .next _ => false
  | .fault _ => false
  | .refused q => decide (q = r)

/-- A computation of `alg` in progress, posited: its words, the two halves of its counter, the bytes of its block. -/
def inProgress (alg : Alg) (w : Words) (hi lo : Word) (block : List Byte) : State :=
  { State.reset with
    words := w, countHi := hi, countLo := lo, phase := .active alg, mem := Memory.writeBytes [] 4 block }

/-- `n` characters of a digest written as one hexadecimal number. -/
def digits (n v : Nat) : List Byte := (List.range n).map fun i => hexDigit (v / 16 ^ (n - 1 - i) % 16)

/-- The whole buffer is the digest field and zeros after it. -/
def bufferIs (text : List Byte) (t : State) : Bool :=
  decide (t.mem.readBytes 0 68 = text ++ List.replicate (68 - text.length) 0#8)

/-- `"abc"`. -/
def abc : List Byte := [0x61#8, 0x62#8, 0x63#8]

/-- The state with one host input presented. -/
def presenting (h : HostInput) : State := State.reset.setPending [h]

/-! ## Well-formedness -/

theorem md5Update_wellFormed (n : Nat) : (Instr.md5Update (List.replicate n 0#8)).wellFormed = decide (n ≤ 65535) := by
  rw [Instr.wellFormed, Instr.payload, List.length_replicate, lenMax]
theorem sha1Update_wellFormed (n : Nat) : (Instr.sha1Update (List.replicate n 0#8)).wellFormed = decide (n ≤ 65535) := by
  rw [Instr.wellFormed, Instr.payload, List.length_replicate, lenMax]
theorem sha256Update_wellFormed (n : Nat) : (Instr.sha256Update (List.replicate n 0#8)).wellFormed = decide (n ≤ 65535) := by
  rw [Instr.wellFormed, Instr.payload, List.length_replicate, lenMax]
theorem rmd160Update_wellFormed (n : Nat) : (Instr.rmd160Update (List.replicate n 0#8)).wellFormed = decide (n ≤ 65535) := by
  rw [Instr.wellFormed, Instr.payload, List.length_replicate, lenMax]

/-- The one check: a payload of 65536 bytes is refused, one of 65535 is not. -/
theorem test_wellFormed_md5Update : (Instr.md5Update (List.replicate 65536 0#8)).wellFormed = false :=
  (md5Update_wellFormed 65536).trans (by decide)
theorem test_wellFormed_sha1Update : (Instr.sha1Update (List.replicate 65536 0#8)).wellFormed = false :=
  (sha1Update_wellFormed 65536).trans (by decide)
theorem test_wellFormed_sha256Update : (Instr.sha256Update (List.replicate 65536 0#8)).wellFormed = false :=
  (sha256Update_wellFormed 65536).trans (by decide)
theorem test_wellFormed_rmd160Update : (Instr.rmd160Update (List.replicate 65536 0#8)).wellFormed = false :=
  (rmd160Update_wellFormed 65536).trans (by decide)
theorem test_wellFormed_largest : (Instr.md5Update (List.replicate 65535 0#8)).wellFormed = true :=
  (md5Update_wellFormed 65535).trans (by decide)

/-! ## Decoding: every constructor by a word written out from R41 to R45, `len` 31:16, `rsv` 15:4, `alg` 3:2, `op` 1:0 -/

theorem test_decode_init :
    decodeCommand 0b0000000000000000_000000000000_00_00#32 [] = .ok .md5Init ∧
    decodeCommand 0b0000000000000000_000000000000_01_00#32 [] = .ok .sha1Init ∧
    decodeCommand 0b0000000000000000_000000000000_10_00#32 [] = .ok .sha256Init ∧
    decodeCommand 0b0000000000000000_000000000000_11_00#32 [] = .ok .rmd160Init := by decide

theorem test_decode_update :
    decodeCommand 0b0000000000000011_000000000000_00_01#32 abc = .ok (.md5Update abc) ∧
    decodeCommand 0b0000000000000011_000000000000_01_01#32 abc = .ok (.sha1Update abc) ∧
    decodeCommand 0b0000000000000011_000000000000_10_01#32 abc = .ok (.sha256Update abc) ∧
    decodeCommand 0b0000000000000011_000000000000_11_01#32 abc = .ok (.rmd160Update abc) := by decide

theorem test_decode_final :
    decodeCommand 0b0000000000000000_000000000000_00_10#32 [] = .ok .md5Final ∧
    decodeCommand 0b0000000000000000_000000000000_01_10#32 [] = .ok .sha1Final ∧
    decodeCommand 0b0000000000000000_000000000000_10_10#32 [] = .ok .sha256Final ∧
    decodeCommand 0b0000000000000000_000000000000_11_10#32 [] = .ok .rmd160Final := by decide

theorem test_decode_compress :
    decodeRequest 0b00#2 = .md5Compress ∧ decodeRequest 0b01#2 = .sha1Compress ∧
    decodeRequest 0b10#2 = .sha256Compress ∧ decodeRequest 0b11#2 = .rmd160Compress := by decide

/-- V-E6 to V-E10. -/
theorem test_decode_reserved :
    decodeCommand 0x00000003#32 [] = .error .reservedEncoding ∧ decodeCommand 0x00000010#32 [] = .error .reservedEncoding ∧
    decodeCommand 0x00010000#32 [0x61#8] = .error .reservedEncoding ∧
    decodeCommand 0x00010002#32 [0x61#8] = .error .reservedEncoding ∧
    decodeCommand 0x00008001#32 [] = .error .reservedEncoding := by decide

/-- R217: the payload is exactly `len` bytes. -/
theorem test_decode_payload :
    decodeCommand 0x00030001#32 [0x61#8] = .error .payloadLength ∧ decodeCommand 0x00000000#32 [0x61#8] = .error .payloadLength := by
  decide

/-- The table's words, as it numbers them. -/
theorem test_decodeTableWord :
    decodeTableWord 32 0x0000000C = some .rmd160Init ∧ decodeTableWord 32 0x00020005 = some (.sha1Update [0#8, 0#8]) ∧
    decodeTableWord 32 0x00000006 = some .sha1Final ∧ decodeTableWord 32 3 = none ∧
    decodeTableWord 8 3 = some .rmd160Compress := by decide

/-! ## Word view and primitives -/

/-- V-W1 to V-W8. -/
theorem test_word_view :
    wordOf .le 0x61 0x62 0x63 0x80 = 0x80636261#32 ∧ wordOf .be 0x61 0x62 0x63 0x80 = 0x61626380#32 ∧
    bytesOf .le 0x98500190#32 = [0x90#8, 0x01#8, 0x50#8, 0x98#8] ∧
    bytesOf .be 0xBA7816BF#32 = [0xba#8, 0x78#8, 0x16#8, 0xbf#8] ∧
    wordOf .le 0 0 0 0x80 = 0x80000000#32 ∧ wordOf .be 0 0 0 0x80 = 0x00000080#32 := by decide

/-- V-A1, V-A3 to V-A9. -/
theorem test_primitives :
    0xFFFFFFFF#32 + 0x00000001#32 = 0x00000000#32 ∧ rotl 0x80000001#32 1 = 0x00000003#32 ∧
    rotr 0x00000003#32 2 = 0xC0000000#32 ∧ rotl 0x98BADCFE#32 10 = 0xEB73FA62#32 ∧
    shr 0x80000000#32 3 = 0x10000000#32 ∧ shr 0xFFFFFFFF#32 10 = 0x003FFFFF#32 ∧ ~~~0x0F0F0F0F#32 = 0xF0F0F0F0#32 ∧
    chooseF 0xFFFF0000#32 0x12345678#32 0x9ABCDEF0#32 = 0x1234DEF0#32 ∧
    majorityF 0xFF00FF00#32 0xF0F0F0F0#32 0x0000FFFF#32 = 0xF000FFF0#32 := by decide

/-- V-A10, V-A11. -/
theorem test_sigma :
    ssig0 0x00000018#32 = 0x30060003#32 ∧ ssig1 0x00000018#32 = 0x000F0000#32 ∧
    bsig0 0x6A09E667#32 = 0xCE20B47E#32 ∧ bsig1 0x510E527F#32 = 0x3587272B#32 := by decide

/-! ## INIT, from a state in the middle of another computation (V-I1 to V-I4) -/

/-- A state that is not reset. -/
def dirty : State := inProgress .sha256 (initialWords .sha256) 1 5 abc

theorem test_md5Init : nextIs (exec .md5Init dirty) (fun t =>
    decide (t.words = ⟨0x67452301#32, 0xefcdab89#32, 0x98badcfe#32, 0x10325476#32, 0, 0, 0, 0⟩ ∧
      t.countLo = 0 ∧ t.countHi = 0 ∧ t.phase = .active .md5 ∧ t.mem = dirty.mem)) = true := by decide +kernel
theorem test_sha1Init : nextIs (exec .sha1Init dirty) (fun t =>
    decide (t.words = ⟨0x67452301#32, 0xefcdab89#32, 0x98badcfe#32, 0x10325476#32, 0xc3d2e1f0#32, 0, 0, 0⟩ ∧
      t.countLo = 0 ∧ t.countHi = 0 ∧ t.phase = .active .sha1)) = true := by decide +kernel
theorem test_sha256Init : nextIs (exec .sha256Init dirty) (fun t =>
    decide (t.words = ⟨0x6a09e667#32, 0xbb67ae85#32, 0x3c6ef372#32, 0xa54ff53a#32, 0x510e527f#32, 0x9b05688c#32,
      0x1f83d9ab#32, 0x5be0cd19#32⟩ ∧ t.countLo = 0 ∧ t.countHi = 0 ∧ t.phase = .active .sha256)) = true := by
  decide +kernel
theorem test_rmd160Init : nextIs (exec .rmd160Init dirty) (fun t =>
    decide (t.words = ⟨0x67452301#32, 0xefcdab89#32, 0x98badcfe#32, 0x10325476#32, 0xc3d2e1f0#32, 0, 0, 0⟩ ∧
      t.countLo = 0 ∧ t.countHi = 0 ∧ t.phase = .active .rmd160)) = true := by decide +kernel

/-! ## UPDATE -/

/-- V-U3: 64 bytes of `a`, one compression, the buffer zero. -/
def afterBlock (alg : Alg) (w : Words) : Bool :=
  nextIs (exec (.update alg (List.replicate 64 0x61#8)) (inProgress alg (initialWords alg) 0 0 [])) fun t =>
    decide (t.words = w ∧ t.countLo = 0x40#32 ∧ t.mem = [])

theorem test_md5Update : afterBlock .md5 ⟨0x89d4ff56#32, 0x125cd962#32, 0x69cade33#32, 0x0033e325#32, 0, 0, 0, 0⟩ = true := by
  decide +kernel
theorem test_sha1Update : afterBlock .sha1
    ⟨0xda4968eb#32, 0x2e377c1f#32, 0x884e8f52#32, 0x83524beb#32, 0xe74ebdbd#32, 0, 0, 0⟩ = true := by decide +kernel
theorem test_sha256Update : afterBlock .sha256 ⟨0xdf5bb81c#32, 0xe81e0626#32, 0xfb45a894#32, 0x4fd40f31#32, 0xb25e6816#32,
    0xd6d499c1#32, 0xab904929#32, 0x00635e66#32⟩ = true := by decide +kernel
theorem test_rmd160Update : afterBlock .rmd160
    ⟨0xd42339f0#32, 0xce5b9f6f#32, 0x2874a075#32, 0xdf67aaf1#32, 0xc6c1be1c#32, 0, 0, 0⟩ = true := by decide +kernel

/-- V-U7: the counter's carry, a fill, a compression and a remainder. -/
def afterCarry (alg : Alg) (w : Words) : Bool :=
  nextIs (exec (.update alg (List.replicate 32 0x79#8))
    (inProgress alg (initialWords alg) 0 0xfffffff0#32 (List.replicate 48 0x78#8))) fun t =>
      decide (t.words = w ∧ t.countHi = 1#32 ∧ t.countLo = 0x10#32 ∧
        t.mem = Memory.writeBytes [] 4 (List.replicate 16 0x79#8))

theorem test_sha256Update_carry : afterCarry .sha256 ⟨0x9127fc30#32, 0xab0efa38#32, 0xfa9fd1a9#32, 0x0988c11f#32,
    0x367b738b#32, 0xd179295e#32, 0xf2b70c9a#32, 0x66cce7db#32⟩ = true := by decide +kernel
theorem test_md5Update_carry : afterCarry .md5
    ⟨0x9ce0e960#32, 0xd2cf1c84#32, 0x5b9abed8#32, 0x8ec50a4e#32, 0, 0, 0, 0⟩ = true := by decide +kernel

/-- V-X5: another algorithm's `UPDATE`. -/
theorem test_sha1Update_other : refusedFor (exec (.sha1Update abc) (inProgress .md5 (initialWords .md5) 0 0 [])) .algorithmMismatch = true := by
  decide +kernel

/-- V-U1: three bytes appended. -/
theorem test_rmd160Update_append : nextIs (exec (.rmd160Update abc) (inProgress .rmd160 (initialWords .rmd160) 0 0 []))
    (fun t => decide (t.words = initialWords .rmd160 ∧ t.countLo = 3#32 ∧
      t.mem = [(4, 0x61#8), (5, 0x62#8), (6, 0x63#8)])) = true := by decide +kernel

/-! ## FINAL -/

/-- V-F6: the bit count from a posited counter, and the order of its halves. -/
def afterFinal (alg : Alg) (text : List Byte) : Bool :=
  nextIs (exec (.final alg) (inProgress alg (initialWords alg) 1 0xe0000001#32 [0x5a#8])) fun t =>
    bufferIs text t && decide (t.words = Words.zero ∧ t.countLo = 0 ∧ t.countHi = 0 ∧ t.phase = .idle)

theorem test_md5Final : afterFinal .md5 (digits 32 0xf76c158d6a9976062fc0cebc818c84ae) = true := by decide +kernel
theorem test_sha1Final : afterFinal .sha1 (digits 40 0xdb71faae18200550580eec82955824de25566480) = true := by decide +kernel
theorem test_sha256Final : afterFinal .sha256
    (digits 64 0x9478e01288b9a02706ff84b6a555ea892d0d3adb1133c441a15d0ba4b78d03d2) = true := by decide +kernel
theorem test_rmd160Final : afterFinal .rmd160 (digits 40 0xb86fe6fffbcd13dc75f3bebf16d8a238bf23d2da) = true := by decide +kernel

/-- V-F1 at 56 bytes: the pad spills into a second block. -/
def afterSpill (alg : Alg) (text : List Byte) : Bool :=
  nextIs (exec (.final alg) (inProgress alg (initialWords alg) 0 56 (List.replicate 56 0x61#8))) (bufferIs text)

theorem test_md5Final_spill : afterSpill .md5 (digits 32 0x3b0c8ac703f828b04c6c197006d17218) = true := by decide +kernel
theorem test_sha1Final_spill : afterSpill .sha1 (digits 40 0xc2db330f6083854c99d4b5bfb6e8f29f201be699) = true := by decide +kernel
theorem test_sha256Final_spill : afterSpill .sha256
    (digits 64 0xb35439a4ac6f0948b6d6f9e3c6af0f5f590ce20f1bde7090ef7970686ec6738a) = true := by decide +kernel
theorem test_rmd160Final_spill : afterSpill .rmd160 (digits 40 0xe72334b46c83cc70bef979e15453706c95b888be) = true := by
  decide +kernel

/-! ## COMPRESS -/

/-- V-K3: the block `00 01 02 … 3f` from the initial words; the buffer stays. -/
def afterCompress (alg : Alg) (w : Words) : Bool :=
  let s := inProgress alg (initialWords alg) 0 0 ((List.range 64).map (BitVec.ofNat 8))
  nextIs (exec (.compress alg) s) fun t => decide (t.words = w ∧ t.mem = s.mem ∧ t.work = Work.zero)

theorem test_md5Compress : afterCompress .md5 ⟨0x9144d9ca#32, 0xd901e4c9#32, 0x72fc5b38#32, 0x625ff51e#32, 0, 0, 0, 0⟩ = true := by
  decide +kernel
theorem test_sha1Compress : afterCompress .sha1
    ⟨0xb9ac757b#32, 0xbc297925#32, 0x2e227274#32, 0x06872f94#32, 0xcbea56a1#32, 0, 0, 0⟩ = true := by decide +kernel
theorem test_sha256Compress : afterCompress .sha256 ⟨0xfc99a2df#32, 0x88f42a7a#32, 0x7bb9d180#32, 0x33cdc6a2#32, 0x0256755f#32,
    0x9d5b9a50#32, 0x44a9cc31#32, 0x5abe84a7#32⟩ = true := by decide +kernel
theorem test_rmd160Compress : afterCompress .rmd160
    ⟨0xd6e08676#32, 0xa2e0eaba#32, 0xc4a552b7#32, 0x3b94adcb#32, 0x54768374#32, 0, 0, 0⟩ = true := by decide +kernel

/-! ## Steps -/

/-- V-E6 and V-E8 as steps. -/
theorem test_step_reserved : refusedFor (step (presenting (.command 0x00000003#32 []))) .reservedEncoding = true ∧
    refusedFor (step (presenting (.command 0x00010000#32 [0x61#8]))) .reservedEncoding = true := by decide +kernel
/-- V-X1 and V-X2. -/
theorem test_step_noComputation :
    refusedFor (step (presenting (.command 0x00010001#32 [0x61#8]))) .noComputation = true ∧
    refusedFor (step (presenting (.command 0x00000002#32 []))) .noComputation = true := by decide +kernel
/-- V-X7 and V-X8. -/
theorem test_step_ceiling :
    refusedFor (exec (.md5Update [0x61#8]) (inProgress .md5 (initialWords .md5) 0x00200000#32 0 [])) .byteCeiling = true ∧
    nextIs (exec (.md5Update []) (inProgress .md5 (initialWords .md5) 0x00200000#32 0 [])) (fun _ => true) = true ∧
    nextIs (exec (.md5Update [0x61#8]) (inProgress .md5 (initialWords .md5) 0x001fffff#32 0xffffffff#32 []))
      (fun t => decide (t.byteCount = 2 ^ 53)) = true := by decide +kernel
/-- R36: a read of the last byte and of the first address past the buffer. -/
theorem test_step_read :
    nextIs (step (({ dirty with mem := [(67, 0x5a#8)] } : State).setPending [.read 67#7]))
      (fun t => decide (t.received = [0x5a#8] ∧ t.pending = [])) = true ∧
    refusedFor (step (presenting (.read 68#7))) .readOutsideBuffer = true := by decide +kernel
/-- R210: reset between commands. -/
theorem test_step_reset : nextIs (step (dirty.setPending [.reset])) (fun t => decide (t = State.reset)) = true := by
  decide +kernel
/-- The word placed by `withFetchWord` is the one the next step runs. -/
theorem test_step_withFetchWord :
    nextIs (step (State.reset.withFetchWord 32 0x00000004)) (fun t => decide (t.phase = .active .sha1 ∧ t.pending = [])) = true ∧
    nextIs (step (State.reset.withFetchWord 8 1)) (fun t => decide (t.creq = none ∧ t.words.w0 ≠ 0)) = true := by
  decide +kernel

theorem reset_memory_canonical : State.reset.mem.wf := by decide

/-! ## Witnesses: inputs that meet the hypotheses of the statements -/

/-- MD5 in progress after `"abc"`. -/
def md5Abc : State := inProgress .md5 (initialWords .md5) 0 3 abc

/-- SHA-256 in progress with 63 bytes buffered. -/
def sha63 : State := inProgress .sha256 (initialWords .sha256) 0 63 (List.replicate 63 0x61#8)

/-- One byte below the ceiling. -/
def belowCeiling : State := inProgress .md5 (initialWords .md5) 0x001fffff#32 0xffffffff#32 []

/-- At the ceiling. -/
def atCeiling : State := inProgress .md5 (initialWords .md5) 0x00200000#32 0 []

theorem witness_DecodeOfEncode : (Instr.sha256Update abc).wellFormed = true ∧ (Instr.md5Update (List.replicate 65535 0#8)).wellFormed = true ∧
    Instr.rmd160Final.wellFormed = true := ⟨by decide, test_wellFormed_largest, by decide⟩

theorem witness_HandWrittenWordsDecode : (List.replicate 65535 0x61#8).length = 65535 := List.length_replicate

theorem witness_EncodeOfDecode : decode (.command 0x00030009#32 abc) = .ok (.sha256Update abc) ∧
    decode (.request 3#2) = .ok .rmd160Compress := by decide

theorem witness_OpcodeMapDecodes :
    (∃ r, r ∈ hostRows ∧ r.selects 0x00000000#32 = true ∧ ([] : List Byte).length = (0x00000000#32).toNat / 2 ^ 16) ∧
    (∃ r, r ∈ hostRows ∧ r.selects 0x0003000D#32 = true ∧ abc.length = (0x0003000D#32).toNat / 2 ^ 16) :=
  ⟨⟨hostRows[0], by simp [hostRows], by decide⟩, ⟨hostRows[7], by simp [hostRows], by decide⟩⟩

/-- Each clause at a word just outside a row: `op = 3`; `rsv` with its lowest and its highest bit; `len = 1` with `INIT`
and `FINAL`. -/
theorem witness_ReservedWordsRefused :
    (hostRows.all fun r => !r.selects 0x00000003#32) = true ∧ (hostRows.all fun r => !r.selects 0x00000010#32) = true ∧
    (hostRows.all fun r => !r.selects 0x00008001#32) = true ∧ (hostRows.all fun r => !r.selects 0x00010000#32) = true ∧
    (hostRows.all fun r => !r.selects 0x00010002#32) = true ∧ (presenting (.command 0x00000003#32 [])).creq = none ∧
    (presenting (.command 0x00000003#32 [])).pending = .command 0x00000003#32 [] :: [] := by decide

theorem witness_StepRunsDecodedCommand :
    (presenting (.command 0x00030001#32 abc)).creq = none ∧
    (presenting (.command 0x00030001#32 abc)).pending = .command 0x00030001#32 abc :: [] ∧
    decodeCommand 0x00030001#32 abc = .ok (.md5Update abc) := by decide

theorem witness_StepServesRequest : (State.reset.setCreq (some 2#2)).creq = some (algCode .sha256) := by decide

theorem witness_WrongPayloadLengthRejected :
    (presenting (.command 0x00030001#32 [0x61#8])).creq = none ∧
    (presenting (.command 0x00030001#32 [0x61#8])).pending = .command 0x00030001#32 [0x61#8] :: [] ∧
    (∃ r, r ∈ hostRows ∧ r.selects 0x00030001#32 = true) ∧ [0x61#8].length ≠ (0x00030001#32).toNat / 2 ^ 16 ∧
    (∃ r, r ∈ hostRows ∧ r.selects 0x00000002#32 = true) ∧ [0x61#8].length ≠ (0x00000002#32).toNat / 2 ^ 16 :=
  ⟨by decide, by decide, ⟨hostRows[4], by simp [hostRows], by decide⟩, by decide,
    ⟨hostRows[8], by simp [hostRows], by decide⟩, by decide⟩

/-- The two clauses at 67 and 68. -/
theorem witness_HostReadPort :
    (presenting (.read 67#7)).creq = none ∧ (presenting (.read 67#7)).pending = .read 67#7 :: [] ∧ (67#7).toNat < 68 ∧
    (presenting (.read 68#7)).creq = none ∧ (presenting (.read 68#7)).pending = .read 68#7 :: [] ∧ 68 ≤ (68#7).toNat := by
  decide

theorem witness_IdleStepKeepsState : dirty.creq = none ∧ dirty.pending = [] := by decide +kernel

theorem witness_ResetSignalRestores :
    (dirty.setPending [.reset]).creq = none ∧ (dirty.setPending [.reset]).pending = .reset :: [] := by decide +kernel

/-- Both clauses at their edge: 62 + 1 bytes do not fill the block, 63 + 1 do. -/
theorem witness_UpdateAbsorbs :
    (sha63.mem.wf ∧ sha63.phase = .active .sha256 ∧ [0x61#8].length ≤ 65535 ∧ sha63.byteCount + [0x61#8].length ≤ 2 ^ 53 ∧
      64 ≤ sha63.index + [0x61#8].length) ∧
    (md5Abc.mem.wf ∧ md5Abc.phase = .active .md5 ∧ (List.replicate 60 0x61#8).length ≤ 65535 ∧
      md5Abc.byteCount + (List.replicate 60 0x61#8).length ≤ 2 ^ 53 ∧
      md5Abc.index + (List.replicate 60 0x61#8).length < 64) := by decide +kernel

/-- The carry's edge and the ceiling's. -/
theorem witness_UpdateCountsBytes :
    ((65535#32).toNat ≤ 65535 ∧ 2 ^ 32 ≤ (0xFFFF0001#32).toNat + (65535#32).toNat) ∧
    (belowCeiling.phase = .active .md5 ∧ [0x61#8].length ≤ 65535 ∧ belowCeiling.byteCount + [0x61#8].length ≤ 2 ^ 53) := by
  decide +kernel

theorem witness_EmptyUpdateChangesNothing : atCeiling.phase = .active .md5 ∧ atCeiling.byteCount ≤ 2 ^ 53 := by decide +kernel

theorem witness_ChunkingInvariance : sha63.phase = .active .sha256 ∧ [0x61#8].length + abc.length ≤ 65535 ∧
    sha63.byteCount + ([0x61#8].length + abc.length) ≤ 2 ^ 53 := by decide +kernel

theorem witness_UpdateIsByteSerial : sha63.phase = .active .sha256 ∧ abc.length ≤ 65535 ∧
    sha63.byteCount + abc.length ≤ 2 ^ 53 := by decide +kernel

theorem witness_FinalWritesDigest : md5Abc.mem.wf ∧ md5Abc.phase = .active .md5 := by decide +kernel

/-- Both sides of 55. -/
theorem witness_PaddingFillsLastBlock : 55 % 64 ≤ 55 ∧ ¬ 56 % 64 ≤ 55 ∧ (∃ j, j ≤ 63 ∧ (56 + 1 + j + 8) % 64 = 0) :=
  ⟨by decide, by decide, 63, by decide⟩

/-- The last byte of the zero fill, and the empty one. -/
theorem witness_MarkerAndZeroFill : md5Abc.mem.wf ∧ md5Abc.index < 63 ∧ 63 < 64 ∧ sha63.mem.wf ∧ sha63.index = 63 := by
  decide +kernel

theorem witness_LengthFieldBytes : md5Abc.mem.wf ∧ (59 < 60 ∨ 68 ≤ 59) := by decide +kernel

theorem witness_HexExpansion : md5Abc.mem.wf ∧ 15 < digestSize .md5 ∧ 2 * digestSize .md5 ≤ 32 := by decide +kernel

/-- The last message word, the first word of the recurrence and the last. -/
theorem witness_Schedules : 15 < 16 ∧ 16 ≤ 16 ∧ 79 < 80 ∧ 16 ≤ 63 ∧ 63 < 64 := by decide

/-- Words that differ in the words MD5 does not use. -/
theorem witness_CompressServesRequestThenZeroes :
    usedWords .md5 { initialWords .md5 with w4 := 1#32, w7 := 5#32 } = usedWords .md5 md5Abc.words := by decide

/-- Two states that differ in an unused word and in the header only. -/
theorem witness_CompressionIsPure :
    usedWords .md5 (initialWords .md5) = usedWords .md5 { initialWords .md5 with w7 := 5#32 } ∧
    (∀ i, i < 64 → (Memory.writeBytes [] 4 abc).read (4 + i) = (Memory.writeBytes [] 3 (0x7a#8 :: abc)).read (4 + i)) := by
  decide

theorem witness_RefusedWithoutComputation : State.reset.phase = .idle := by decide

theorem witness_RefusedForOtherAlgorithm : md5Abc.phase = .active .md5 ∧ Alg.md5 ≠ Alg.sha1 := by decide

/-- Both clauses at the ceiling itself. -/
theorem witness_ByteCeilingIsExact : belowCeiling.phase = .active .md5 ∧ belowCeiling.byteCount + [0x61#8].length ≤ 2 ^ 53 ∧
    atCeiling.phase = .active .md5 ∧ 2 ^ 53 < atCeiling.byteCount + [0x61#8].length := by decide +kernel

theorem witness_ContractDecidesCompletion : ∀ alg, Instr.md5Final ≠ .compress alg := by
  intro alg; cases alg <;> decide

theorem witness_PhaseChanges : (∃ t, exec .md5Init dirty = .next t) ∧ (∃ t, exec .md5Final md5Abc = .next t) ∧
    (∃ t, exec (.md5Update []) md5Abc = .next t) ∧ ∃ t, exec .sha1Compress dirty = .next t :=
  ⟨⟨_, rfl⟩, ⟨_, rfl⟩, ⟨_, rfl⟩, ⟨_, rfl⟩⟩

theorem witness_InstructionsLeaveHostSide : ∃ t, exec .md5Final (md5Abc.setPending [.reset]) = .next t := ⟨_, rfl⟩

theorem witness_StepKeepsMemoryCanonical :
    (md5Abc.setPending [.command 0x00000002#32 []]).mem.wf ∧ (md5Abc.setPending [.command 0x00000002#32 []]).mem.within 68 ∧
    ∃ t, step (md5Abc.setPending [.command 0x00000002#32 []]) = .next t := ⟨by decide +kernel, by decide +kernel, _, rfl⟩

/-- A state in progress that is a command boundary, and a step from it. -/
theorem witness_StepKeepsBoundary : Boundary (md5Abc.setPending [.command 0x00000002#32 []]) ∧
    ∃ t, step (md5Abc.setPending [.command 0x00000002#32 []]) = .next t := by
  refine ⟨⟨by decide +kernel, by decide +kernel, rfl, rfl, ?_, ?_, ?_, ?_, ?_⟩, _, rfl⟩
  · intro h; cases h
  · intro h; cases h
  · intro a h; cases h; exact ⟨rfl, rfl, rfl, rfl⟩
  · intro a _; decide +kernel
  · intro a _ h; exact absurd h (by decide +kernel)

theorem witness_RunsToEndExactlyInsideContract :
    (presenting (.command 0x00000000#32 [])).creq = none ∧
    insideContract .idle 0 [.command 0x00000000#32 [], .read 67#7, .command 0x00000002#32 []] = true ∧
    insideContract .idle 0 [.command 0x00000000#32 [], .read 68#7] = false ∧
    insideContract .idle 0 [.command 0x00000002#32 []] = false := by decide

theorem witness_OpenComputationHolds : (dirty.setPending (openComputation .md5 [abc, []])).mem.wf ∧
    (dirty.setPending (openComputation .md5 [abc, []])).creq = none ∧
    (dirty.setPending (openComputation .md5 [abc, []])).pending = openComputation .md5 [abc, []] ++ [] ∧
    (∀ d, d ∈ [abc, []] → d.length ≤ 65535) ∧ [abc, []].flatten.length ≤ 2 ^ 53 := by decide +kernel

theorem witness_WholeComputationHashesMessage : (dirty.setPending (computation .md5 [abc, []])).mem.wf ∧
    (dirty.setPending (computation .md5 [abc, []])).creq = none ∧
    (dirty.setPending (computation .md5 [abc, []])).pending = computation .md5 [abc, []] ++ [] ∧
    (∀ d, d ∈ [abc, []] → d.length ≤ 65535) ∧ [abc, []].flatten.length ≤ 2 ^ 53 := by decide +kernel

/-- The same computation over a clean buffer and over one with residue in the header and after the buffered bytes. -/
theorem witness_ResidueDoesNotFlow :
    md5Abc.mem.wf ∧ (md5Abc.setMem (Memory.writeBytes [] 3 (0x39#8 :: abc ++ [0x39#8]))).mem.wf ∧
    Instr.md5Final.wellFormed = true ∧ (∀ alg, Instr.md5Final ≠ .compress alg) ∧
    SameLive md5Abc (md5Abc.setMem (Memory.writeBytes [] 3 (0x39#8 :: abc ++ [0x39#8]))) := by
  refine ⟨by decide +kernel, by decide +kernel, by decide, ?_, rfl, rfl, rfl, rfl, rfl, rfl, ?_⟩
  · intro alg; cases alg <;> decide
  · decide +kernel

theorem witness_DigestIndependentOfHeader : Config.standardOrder { Config.standard with hdr := 20 } ∧ dirty.mem.wf ∧
    abc.length ≤ 65535 ∧ 83 < Config.bufsz { Config.standard with hdr := 20 } :=
  ⟨fun alg => by cases alg <;> rfl, by decide +kernel⟩

theorem witness_WordViewLoadAfterStore : dirty.mem.wf ∧ (3 : Nat) < 4 ∧ ((63 < 64 ∨ 64 + 4 ≤ 63) ∧ (68 < 64 ∨ 64 + 4 ≤ 68)) := by
  decide +kernel

theorem witness_MemoryLaws : dirty.mem.wf ∧ (∀ p, dirty.mem.read p = dirty.mem.read p) ∧ (5 : Nat) ≠ 4 :=
  ⟨by decide +kernel, fun _ => rfl, by decide⟩

/-- Both ends of the range of rotation amounts. -/
theorem witness_RotatesAndShifts : 0 < 1 ∧ 1 < 32 ∧ 0 < 31 ∧ 31 < 32 := by decide

theorem witness_RoundFunctionBits : 0 < 32 ∧ 31 < 32 := by decide

end Sys2Proof.Tests
end

section
/-! PROOFS. The scope's statements (00_scope.md): the digest at every header size (R5, R24, R92), the rotates and shifts as
numbers (R8), what a step runs (R6), and the forms of choose and majority (R38). -/

namespace Sys2Proof.Machine

open Sys2Proof.Reference
open Sys2Proof.Safety

/-! ## A computation of one `UPDATE`, at any header size -/

@[simp] theorem beginWith_byteCount (alg : Alg) (iv : Words) (s : State) : (beginWith alg iv s).byteCount = 0 := by
  simp [State.byteCount, byteCountOf]

@[simp] theorem buffered_beginWith (c : Config) (alg : Alg) (iv : Words) (s : State) :
    buffered c (beginWith alg iv s) = [] := rfl

section OneUpdate
variable (c : Config) (alg : Alg) (data : List Byte) (s : State) (hlen : data.length ≤ 65535) (hwf : s.mem.wf)
include hlen

theorem absorb_beginWith_byteCount (iv : Words) : (absorb c alg data (beginWith alg iv s)).byteCount = data.length := by
  rw [absorb_byteCount c alg data _ hlen, beginWith_byteCount, Nat.zero_add, Nat.mod_eq_of_lt (by omega)]

include hwf

theorem absorb_beginWith_words (iv : Words) :
    (absorb c alg data (beginWith alg iv s)).words = foldMessage alg iv data := by
  rw [absorb_words c alg data (beginWith alg iv s) hlen hwf, beginWith_words, buffered_beginWith, List.nil_append]

theorem absorb_beginWith_buffered (iv : Words) :
    buffered c (absorb c alg data (beginWith alg iv s)) = remainder data := by
  rw [absorb_buffered c alg data (beginWith alg iv s) hlen hwf, buffered_beginWith, List.nil_append]

/-- The buffer after `INIT`, one `Absorb` and `Finalize`: only the addresses depend on `HDR`, so the padded remainder
continues the fold over the payload exactly as R92 folds the padded message. -/
theorem finalize_absorb_beginWith_read (ho : c.standardOrder) (p : Nat) (hp : p < c.bufsz) :
    (finalize c alg (absorb c alg data (beginWith alg (initialWords alg) s))).mem.read p = (hashText alg data).getD p 0 := by
  have hmem : (absorb c alg data (beginWith alg (initialWords alg) s)).mem.wf := absorb_wf c alg data _ hlen hwf
  rw [finalize_read c alg _ ho hmem p hp, absorb_beginWith_words c alg data s hlen hwf,
    absorb_beginWith_buffered c alg data s hlen hwf, absorb_beginWith_byteCount c alg data s hlen,
    ← foldMessage_append, hashText]

end OneUpdate

/-- Settles O51: every lemma about `Absorb` and `Finalize` holds at every header size. -/
theorem digestIndependentOfHeader : Obligations.DigestIndependentOfHeader := by
  intro c alg data s ho hwf hlen p hp
  exact finalize_absorb_beginWith_read c alg data s hlen hwf ho p hp

/-! ## Rotates and shifts -/

/-- The model's `rotl` is the library's rotation, for the amounts R8 allows. -/
theorem rotl_eq_rotateLeft (x : Word) {n : Nat} (h : n < 32) : rotl x n = x.rotateLeft n := by
  rw [rotl, BitVec.rotateLeft_def, Nat.mod_eq_of_lt h]

/-- `rotl` as a number: the low bits multiplied up, the `n` bits that leave at the top added at the bottom (R8). -/
theorem rotl_toNat (x : Word) {n : Nat} (h : n < 32) :
    (rotl x n).toNat = x.toNat * 2 ^ n % 2 ^ 32 + x.toNat / 2 ^ (32 - n) := by
  have hpow : 2 ^ 32 = 2 ^ (32 - n) * 2 ^ n := by rw [← Nat.pow_add, Nat.sub_add_cancel h.le]
  have hhigh : x.toNat * 2 ^ n % 2 ^ 32 = (x.toNat % 2 ^ (32 - n)) <<< n := by
    rw [hpow, Nat.mul_mod_mul_right, Nat.shiftLeft_eq]
  have hlow : x.toNat / 2 ^ (32 - n) < 2 ^ n := Nat.div_lt_of_lt_mul (hpow ▸ x.isLt)
  rw [rotl, BitVec.toNat_or, BitVec.toNat_shiftLeft, BitVec.toNat_ushiftRight, Nat.shiftLeft_eq,
    Nat.shiftRight_eq_div_pow, hhigh, Nat.shiftLeft_add_eq_or_of_lt hlow]

/-- A left rotation by the rest of the word's width undoes a left rotation. -/
theorem rotl_rotl_complement (x : Word) {n : Nat} (h0 : 0 < n) (h : n < 32) : rotl (rotl x n) (32 - n) = x := by
  rw [rotl_eq_rotateLeft x h, rotl_eq_rotateLeft _ (show 32 - n < 32 by omega)]
  ext i hi
  simp only [BitVec.getElem_rotateLeft, Nat.mod_eq_of_lt h, Nat.mod_eq_of_lt (show 32 - n < 32 by omega)]
  by_cases hin : i < 32 - n
  · rw [dif_pos hin, dif_neg (by omega)]
    congr 1
    omega
  · rw [dif_neg hin, dif_pos (by omega)]
    congr 1
    omega

theorem rotr_rotl (x : Word) {n : Nat} (h0 : 0 < n) (h : n < 32) : rotr (rotl x n) n = x :=
  rotl_rotl_complement x h0 h

theorem rotl_rotr (x : Word) {n : Nat} (h0 : 0 < n) (h : n < 32) : rotl (rotr x n) n = x := by
  have e := rotl_rotl_complement x (n := 32 - n) (by omega) (by omega)
  rwa [Nat.sub_sub_self h.le] at e

theorem shr_toNat (x : Word) (n : Nat) : (shr x n).toNat = x.toNat / 2 ^ n := by
  rw [shr, BitVec.toNat_ushiftRight, Nat.shiftRight_eq_div_pow]

theorem shl_toNat (x : Word) (n : Nat) : (shl x n).toNat = x.toNat * 2 ^ n % 2 ^ 32 := by
  rw [shl, BitVec.toNat_shiftLeft, Nat.shiftLeft_eq]

theorem md5Rot_range : ∀ s, s < 64 → 1 ≤ md5Rot s ∧ md5Rot s ≤ 30 := by decide

theorem rmdSL_range : ∀ j, j < 5 → ∀ u, u < 16 → 1 ≤ rmdSL j u ∧ rmdSL j u ≤ 30 := by decide

theorem rmdSR_range : ∀ j, j < 5 → ∀ u, u < 16 → 1 ≤ rmdSR j u ∧ rmdSR j u ≤ 30 := by decide

/-- Settles O54: `rotl` is a sum of two disjoint parts, and two rotations that add up to the width are none. -/
theorem rotatesAndShifts : Obligations.RotatesAndShifts := by
  refine ⟨fun x n h0 h => ?_, md5Rot_range, fun j u hj hu => ?_⟩
  · exact ⟨rotl_toNat x h, rfl, rotr_rotl x h0 h, rotl_rotr x h0 h, shr_toNat x n, shl_toNat x n⟩
  · obtain ⟨hl1, hl30⟩ := rmdSL_range j hj u hu
    obtain ⟨hr1, hr30⟩ := rmdSR_range j hj u hu
    exact ⟨hl1, hl30, hr1, hr30⟩

/-! ## What a step runs -/

/-- Settles O6: with no request on the line, the fetch takes the command at the head of what the host presents. -/
theorem stepRunsDecodedCommand : Obligations.StepRunsDecodedCommand := by
  intro s w payload rest i hcreq hpending hdecode
  exact step_command hcreq hpending hdecode

/-! ## Choose and majority -/

/-- The two terms of choose never have a 1 in the same bit (R38). -/
theorem choose_terms_disjoint (x y z : Word) : (x &&& y) &&& (~~~x &&& z) = 0#32 := by
  ext i hi
  simp only [BitVec.getElem_and, BitVec.getElem_not, BitVec.getElem_zero]
  cases x[i] <;> simp

theorem chooseF_eq_add (x y z : Word) : chooseF x y z = (x &&& y) + (~~~x &&& z) :=
  (BitVec.add_eq_or_of_and_eq_zero _ _ (choose_terms_disjoint x y z)).symm

theorem chooseF_eq_xor (x y z : Word) : chooseF x y z = (x &&& y) ^^^ (~~~x &&& z) := by
  ext i hi
  simp only [chooseF, BitVec.getElem_or, BitVec.getElem_xor, BitVec.getElem_and, BitVec.getElem_not]
  cases x[i] <;> simp

/-- In each bit none, one or all three terms of majority are 1, never exactly two (R38). -/
theorem majorityF_eq_xor (x y z : Word) : majorityF x y z = (x &&& y) ^^^ (x &&& z) ^^^ (y &&& z) := by
  ext i hi
  simp only [majorityF, BitVec.getElem_or, BitVec.getElem_xor, BitVec.getElem_and]
  cases x[i] <;> cases y[i] <;> simp

/-- Settles O55: the formulas are the definitions; the other operators agree bit by bit. -/
theorem chooseAndMajorityForms : Obligations.ChooseAndMajorityForms := fun x y z =>
  ⟨rfl, rfl, rfl, chooseF_eq_xor x y z, chooseF_eq_add x y z, majorityF_eq_xor x y z,
    (chooseF_eq_xor x y z).symm, (majorityF_eq_xor x y z).symm⟩

end Sys2Proof.Machine
end

section
/-! PROOFS. The state's statements (10_state.md): the laws of the scratch buffer (R13), the reset table (R21), the invariant
of a command boundary (R22), who changes `phase` (R16) and the host's side (R17), what an open computation holds (R22 (b)),
and the purity of the compressions (R13, R24). -/

namespace Sys2Proof.Machine

open Sys2Proof.Reference
open Sys2Proof.Safety

/-! ## The scratch buffer -/

/-- Settles O53: the laws of `write` and `zeroFill`, and extensionality of the canonical form. -/
theorem memoryLaws : Obligations.MemoryLaws := by
  refine ⟨fun m a b hm => ⟨write_wf hm a b, ?_, fun p hp => ?_⟩, read_zeroFill, fun m k => memory_ext⟩
  · rw [read_write hm, if_pos rfl]
  · rw [read_write hm, if_neg hp]

/-! ## Reset -/

theorem hexChar_eq_hexDigit : ∀ d : BitVec 4, hexChar d = hexDigit d.toNat := by decide

/-- Settles O11: every register is a literal zero, an empty memory reads 0x00 everywhere, and the ROM has sixteen entries. -/
theorem resetValues : Obligations.ResetValues :=
  ⟨rfl, rfl, rfl, read_nil, rfl, rfl, rfl, rfl, rfl, hexChar_eq_hexDigit⟩

theorem holdsDigest_nil : holdsDigest [] 0 := ⟨fun a ha => absurd ha a.not_lt_zero, fun a _ => read_nil a⟩

/-- Settles O45: after reset the phase is IDLE, the context is zero and the buffer is empty. -/
theorem resetIsBoundary : Obligations.ResetIsBoundary where
  memWf := wf_nil
  memWithin := by simp [State.reset]
  workZero := rfl
  noRequest := rfl
  idleZero _ := ⟨rfl, rfl, rfl⟩
  idleBuffer _ := ⟨0, .inl rfl, holdsDigest_nil⟩
  activeUpper _ h := nomatch h
  activeCount _ h := nomatch h
  activeClean _ h := nomatch h

/-! ## What a completed instruction and a completed step are -/

/-- An `UPDATE` that completes was inside the contract (R60). -/
theorem eq_absorb_of_update_next {c : Config} {alg : Alg} {d : List Byte} {s t : State} (h : update c alg d s = .next t) :
    s.phase = .active alg ∧ s.byteCount + d.length ≤ c.maxBytes ∧ t = absorb c alg d s := by
  rcases update_cases c alg d s with ⟨-, e⟩ | ⟨-, e⟩ | ⟨-, -, e⟩ | ⟨hphase, hceil, e⟩ <;> rw [e] at h <;> cases h
  exact ⟨hphase, hceil, rfl⟩

/-- A `FINAL` that completes was inside the contract (R80). -/
theorem eq_finalize_of_finish_next {c : Config} {alg : Alg} {s t : State} (h : finish c alg s = .next t) :
    s.phase = .active alg ∧ t = finalize c alg s := by
  rcases finish_cases c alg s with ⟨-, e⟩ | ⟨-, e⟩ | ⟨hphase, e⟩ <;> rw [e] at h <;> cases h
  exact ⟨hphase, rfl⟩

/-- Everything an instruction that completes can do. -/
theorem exec_next_cases {i : Instr} {s t : State} (h : exec i s = .next t) :
    (∃ alg, i = .init alg ∧ t = beginWith alg (initialWords alg) s) ∨
    (∃ alg d, i = .update alg d ∧ s.phase = .active alg ∧ s.byteCount + d.length ≤ 2 ^ 53 ∧
      t = absorb Config.standard alg d s) ∨
    (∃ alg, i = .final alg ∧ s.phase = .active alg ∧ t = finalize Config.standard alg s) ∨
    ∃ alg, i = .compress alg ∧ t = runCore Config.standard alg s := by
  rcases instr_cases i with ⟨alg, rfl⟩ | ⟨alg, d, rfl⟩ | ⟨alg, rfl⟩ | ⟨alg, rfl⟩
  · rw [exec_init] at h
    cases h
    exact .inl ⟨alg, rfl, rfl⟩
  · rw [exec_update] at h
    exact .inr (.inl ⟨alg, d, rfl, eq_absorb_of_update_next h⟩)
  · rw [exec_final] at h
    exact .inr (.inr (.inl ⟨alg, rfl, eq_finalize_of_finish_next h⟩))
  · rw [exec_compress] at h
    cases h
    exact .inr (.inr (.inr ⟨alg, rfl, rfl⟩))

/-- Settles O42: of the four operations only `INIT` and `FINAL` write `phase`. -/
theorem phaseChanges : Obligations.PhaseChanges := by
  intro i s t h
  refine ⟨?_, ?_, fun hinit hfinal => ?_⟩
  · rintro alg rfl
    rw [exec_init] at h
    cases h
    exact beginWith_phase _ _ _
  · rintro alg rfl
    rw [exec_final] at h
    obtain ⟨-, rfl⟩ := eq_finalize_of_finish_next h
    exact finalize_phase _ _ _
  · rcases exec_next_cases h with ⟨alg, hi, -⟩ | ⟨alg, d, -, -, -, rfl⟩ | ⟨alg, hi, -⟩ | ⟨alg, -, rfl⟩
    · exact absurd hi (hinit alg)
    · exact absorb_phase _ _ _ _
    · exact absurd hi (hfinal alg)
    · exact runCore_phase _ _ _

/-- Settles O43: none of the four operations writes `pending`, `received` or `creq`. -/
theorem instructionsLeaveHostSide : Obligations.InstructionsLeaveHostSide := by
  intro i s t h
  rcases exec_next_cases h with ⟨alg, -, rfl⟩ | ⟨alg, d, -, -, -, rfl⟩ | ⟨alg, -, -, rfl⟩ | ⟨alg, -, rfl⟩
  · exact ⟨beginWith_pending _ _ _, beginWith_received _ _ _, beginWith_creq _ _ _⟩
  · exact ⟨absorb_pending _ _ _ _, absorb_received _ _ _ _, absorb_creq _ _ _ _⟩
  · exact ⟨finalize_pending _ _ _, finalize_received _ _ _, finalize_creq _ _ _⟩
  · exact ⟨runCore_pending _ _ _, runCore_received _ _ _, runCore_creq _ _ _⟩

/-- What a command word can decode to: never a compression, and an `UPDATE` only with a payload that `len` can count
(R44, R217). -/
theorem decodeCommand_ok_cases {w : Word} {d : List Byte} {i : Instr} (h : decodeCommand w d = .ok i) :
    (∃ alg, i = .init alg) ∨ (∃ alg, i = .update alg d ∧ d.length ≤ 65535) ∨ ∃ alg, i = .final alg := by
  have hlen := (lenField w).isLt
  unfold decodeCommand at h
  split at h
  · cases h
  split at h
  · split at h
    · cases h
    split at h <;> cases h
    exact .inl ⟨_, rfl⟩
  split at h
  · split at h <;> cases h
    exact .inr (.inl ⟨_, rfl, by omega⟩)
  split at h
  · split at h
    · cases h
    split at h <;> cases h
    exact .inr (.inr ⟨_, rfl⟩)
  · cases h

/-- Everything a step that completes can do, the host's command taken apart as well. -/
theorem step_next_cases {s t : State} (h : step s = .next t) :
    (∃ code, s.creq = some code ∧ t = runCore Config.standard (algOfCode code) (s.setCreq none)) ∨
    t = s ∨
    (∃ rest, t = resetCore (s.setPending rest)) ∨
    (∃ rest a, t = (s.setPending rest).setReceived (s.received ++ [s.mem.read a])) ∨
    (∃ rest alg, t = beginWith alg (initialWords alg) (s.setPending rest)) ∨
    (∃ rest alg d, d.length ≤ 65535 ∧ s.phase = .active alg ∧ s.byteCount + d.length ≤ 2 ^ 53 ∧
      t = absorb Config.standard alg d (s.setPending rest)) ∨
    ∃ rest alg, s.phase = .active alg ∧ t = finalize Config.standard alg (s.setPending rest) := by
  rcases step_cases s with ⟨code, hc, e⟩ | ⟨-, -, e⟩ | ⟨rest, -, -, e⟩ | ⟨a, rest, -, -, e⟩ |
    ⟨w, d, rest, i, -, -, hd, e⟩ | ⟨w, d, rest, -, -, -, e⟩ | ⟨w, d, rest, -, -, -, e⟩ <;> rw [e] at h
  · rw [decodeRequest, exec_compress] at h
    cases h
    exact .inl ⟨code, hc, rfl⟩
  · cases h
    exact .inr (.inl rfl)
  · cases h
    exact .inr (.inr (.inl ⟨rest, rfl⟩))
  · rcases Nat.lt_or_ge a.toNat Config.standard.bufsz with ha | ha
    · rw [readPort_inside ha] at h
      cases h
      exact .inr (.inr (.inr (.inl ⟨rest, _, rfl⟩)))
    · rw [readPort_outside ha] at h
      cases h
  · refine .inr (.inr (.inr (.inr ?_)))
    rcases decodeCommand_ok_cases hd with ⟨alg, rfl⟩ | ⟨alg, rfl, hlen⟩ | ⟨alg, rfl⟩
    · rw [exec_init] at h
      cases h
      exact .inl ⟨rest, alg, rfl⟩
    · rw [exec_update] at h
      obtain ⟨hphase, hceil, rfl⟩ := eq_absorb_of_update_next h
      exact .inr (.inl ⟨rest, alg, d, hlen, hphase, hceil, rfl⟩)
    · rw [exec_final] at h
      obtain ⟨hphase, rfl⟩ := eq_finalize_of_finish_next h
      exact .inr (.inr ⟨rest, alg, hphase, rfl⟩)
  · cases h
  · cases h

/-! ## Whole machine: what every step keeps -/

/-- Settles O44: every operation writes through laws that keep both properties, and a decoded payload fits `len`. -/
theorem stepKeepsMemoryCanonical : Obligations.StepKeepsMemoryCanonical := by
  intro s t hwf hwithin h
  rcases step_next_cases h with ⟨code, -, rfl⟩ | rfl | ⟨rest, rfl⟩ | ⟨rest, a, rfl⟩ | ⟨rest, alg, rfl⟩ |
    ⟨rest, alg, d, hlen, -, -, rfl⟩ | ⟨rest, alg, -, rfl⟩
  · rw [runCore_mem]
    exact ⟨hwf, hwithin⟩
  · exact ⟨hwf, hwithin⟩
  · exact ⟨resetIsBoundary.memWf, resetIsBoundary.memWithin⟩
  · exact ⟨hwf, hwithin⟩
  · exact ⟨hwf, hwithin⟩
  · exact ⟨absorb_wf _ _ _ _ hlen hwf, absorb_within _ _ _ _ hlen hwithin⟩
  · exact ⟨finalize_wf hwf, finalize_within hwithin⟩

/-! ## The invariant of a command boundary -/

/-- The invariant does not speak of what the host has still to present. -/
theorem boundary_setPending {s : State} (h : Boundary s) (rest : List HostInput) : Boundary (s.setPending rest) :=
  ⟨h.memWf, h.memWithin, h.workZero, h.noRequest, h.idleZero, h.idleBuffer, h.activeUpper, h.activeCount, h.activeClean⟩

/-- The invariant does not speak of what the host has read. -/
theorem boundary_setReceived {s : State} (h : Boundary s) (bytes : List Byte) : Boundary (s.setReceived bytes) :=
  ⟨h.memWf, h.memWithin, h.workZero, h.noRequest, h.idleZero, h.idleBuffer, h.activeUpper, h.activeCount, h.activeClean⟩

theorem upperZero_initialWords (alg : Alg) : upperZero alg (initialWords alg) := by
  cases alg <;> simp [upperZero, initialWords]

/-- Over the standard 68-byte buffer R22 (d) holds at every address: what is not listed reads 0x00. -/
theorem cleanOutside_iff {s : State} (h : s.mem.within 68) :
    cleanOutside Config.standard s ↔ ∀ p, (p < 4 ∨ 4 + s.index ≤ p) → s.mem.read p = 0#8 := by
  refine ⟨fun hclean p hp => ?_, fun hclean p _ hp => hclean p hp⟩
  rcases Nat.lt_or_ge p 68 with hlt | hge
  · exact hclean p hlt hp
  · exact read_of_within h hge

/-- `INIT` opens a computation whose counter is zero and whose unused words are zero, whatever was before (R65 to R68). -/
theorem beginWith_keeps_boundary {s : State} (alg : Alg) (h : Boundary s) :
    Boundary (beginWith alg (initialWords alg) s) where
  memWf := h.memWf
  memWithin := h.memWithin
  workZero := h.workZero
  noRequest := h.noRequest
  idleZero hphase := nomatch hphase
  idleBuffer hphase := nomatch hphase
  activeUpper a hphase := by
    cases hphase
    exact upperZero_initialWords alg
  activeCount _ _ := by simp
  activeClean _ _ hcount := by simp at hcount

/-- Within a computation R22 (d) is kept: either a compression runs in this `Absorb`, or the buffer was clean before. -/
theorem absorb_cleanOutside_of_boundary {s : State} {alg : Alg} {d : List Byte} (h : Boundary s)
    (hphase : s.phase = .active alg) (hlen : d.length ≤ 65535) (hcount : 64 ≤ s.byteCount + d.length) :
    cleanOutside Config.standard (absorb Config.standard alg d s) := by
  refine absorb_clean _ _ _ _ hlen h.memWf ?_
  have hindex := index_eq_byteCount s
  rcases Nat.lt_or_ge s.byteCount 64 with hlt | hge
  · left
    omega
  · right
    exact (cleanOutside_iff h.memWithin).2 (h.activeClean alg hphase hge)

/-- `UPDATE` inside the contract keeps the invariant. -/
theorem absorb_keeps_boundary {s : State} {alg : Alg} {d : List Byte} (h : Boundary s) (hphase : s.phase = .active alg)
    (hlen : d.length ≤ 65535) (hceil : s.byteCount + d.length ≤ 2 ^ 53) :
    Boundary (absorb Config.standard alg d s) := by
  have hphase' : (absorb Config.standard alg d s).phase = .active alg := by rw [absorb_phase, hphase]
  have hcount : (absorb Config.standard alg d s).byteCount = s.byteCount + d.length := by
    rw [absorb_byteCount _ _ _ _ hlen, Nat.mod_eq_of_lt (by omega)]
  have hwithin : (absorb Config.standard alg d s).mem.within 68 := absorb_within _ _ _ _ hlen h.memWithin
  refine ⟨absorb_wf _ _ _ _ hlen h.memWf, hwithin, ?_, ?_, ?_, ?_, ?_, ?_, ?_⟩
  · rw [absorb_work _ _ _ _ hlen, h.workZero, scrubbed_zero, ite_self]
  · rw [absorb_creq, h.noRequest]
  · intro hidle
    cases hphase'.symm.trans hidle
  · intro hidle
    cases hphase'.symm.trans hidle
  · intro a ha
    cases hphase'.symm.trans ha
    exact upperZero_of_same (absorb_upperSame _ _ _ _ hlen h.memWf) (h.activeUpper alg hphase)
  · intro a _
    rwa [hcount]
  · intro a _ h64
    rw [hcount] at h64
    exact (cleanOutside_iff hwithin).1 (absorb_cleanOutside_of_boundary h hphase hlen h64)

theorem two_mul_digestSize_cases (alg : Alg) :
    2 * digestSize alg = 32 ∨ 2 * digestSize alg = 40 ∨ 2 * digestSize alg = 64 := by
  cases alg <;> decide

/-- The buffer after `FINAL` is a digest field and zeros (R93). -/
theorem finalize_holdsDigest {s : State} (alg : Alg) (hwf : s.mem.wf) (hwithin : s.mem.within 68) :
    holdsDigest (finalize Config.standard alg s).mem (2 * digestSize alg) := by
  have hwithin' : (finalize Config.standard alg s).mem.within 68 := finalize_within hwithin
  have hread := finalize_read Config.standard alg s standard_standardOrder hwf
  have hsize := digestSize_le alg
  refine ⟨fun p hp => ?_, fun p hp => ?_⟩
  · rw [hread p (by rw [standard_bufsz]; omega), List.getD_eq_getElem _ _ (by rwa [digestText_length])]
    exact digestText_isHex alg _ _ (List.getElem_mem _)
  · rcases Nat.lt_or_ge p 68 with hlt | hge
    · rw [hread p hlt, List.getD_eq_default _ _ (by rwa [digestText_length])]
      rfl
    · exact read_of_within hwithin' hge

/-- `FINAL` returns to IDLE with a zero context and the digest field (R87, R93). -/
theorem finalize_keeps_boundary {s : State} (alg : Alg) (h : Boundary s) :
    Boundary (finalize Config.standard alg s) where
  memWf := finalize_wf h.memWf
  memWithin := finalize_within h.memWithin
  workZero := by rw [finalize_work, h.workZero, scrubbed_zero]
  noRequest := by rw [finalize_creq, h.noRequest]
  idleZero _ := ⟨finalize_words _ _ _, finalize_countLo _ _ _, finalize_countHi _ _ _⟩
  idleBuffer _ := ⟨2 * digestSize alg, .inr (two_mul_digestSize_cases alg), finalize_holdsDigest alg h.memWf h.memWithin⟩
  activeUpper _ hphase := nomatch hphase
  activeCount _ hphase := nomatch hphase
  activeClean _ hphase := nomatch hphase

/-- Settles O46: one lemma for each command; no request stands on the line, so no compression runs by itself. -/
theorem stepKeepsBoundary : Obligations.StepKeepsBoundary := by
  intro s t hb h
  rcases step_next_cases h with ⟨code, hcreq, -⟩ | rfl | ⟨rest, rfl⟩ | ⟨rest, a, rfl⟩ | ⟨rest, alg, rfl⟩ |
    ⟨rest, alg, d, hlen, hphase, hceil, rfl⟩ | ⟨rest, alg, -, rfl⟩
  · rw [hb.noRequest] at hcreq
    cases hcreq
  · exact hb
  · exact boundary_setReceived (boundary_setPending resetIsBoundary _) _
  · exact boundary_setReceived (boundary_setPending hb rest) _
  · exact beginWith_keeps_boundary alg (boundary_setPending hb rest)
  · exact absorb_keeps_boundary (boundary_setPending hb rest) hphase hlen hceil
  · exact finalize_keeps_boundary alg (boundary_setPending hb rest)

/-! ## The purity of the compressions -/

/-- The used words of MD5's new words come from `words[0..3]` and the message words (R100). -/
theorem md5Block_usedWords_congr {w v : Words} (x : Sixteen) (h : usedWords .md5 w = usedWords .md5 v) :
    usedWords .md5 (md5Block w x) = usedWords .md5 (md5Block v x) := by
  simp only [usedWords, List.cons.injEq, and_true] at h
  obtain ⟨h0, h1, h2, h3⟩ := h
  have hload : md5Load w x = md5Load v x := by rw [md5Load, h0, h1, h2, h3, md5Load]
  simp only [usedWords, md5Block, md5Add, hload, h0, h1, h2, h3]

/-- The used words of SHA-1's new words come from `words[0..4]` and the message words (R120). -/
theorem sha1Block_usedWords_congr {w v : Words} (x : Sixteen) (h : usedWords .sha1 w = usedWords .sha1 v) :
    usedWords .sha1 (sha1Block w x) = usedWords .sha1 (sha1Block v x) := by
  simp only [usedWords, List.cons.injEq, and_true] at h
  obtain ⟨h0, h1, h2, h3, h4⟩ := h
  have hload : sha1Load w x = sha1Load v x := by rw [sha1Load, h0, h1, h2, h3, h4, sha1Load]
  simp only [usedWords, sha1Block, sha1Add, hload, h0, h1, h2, h3, h4]

/-- SHA-256 uses all eight words. -/
theorem eq_of_usedWords_sha256 {w v : Words} (h : usedWords .sha256 w = usedWords .sha256 v) : w = v := by
  cases w
  cases v
  simpa [usedWords] using h

/-- Both lanes and the combine read `words[0..4]` only (R160, R167). -/
theorem rmdBlock_usedWords_congr {w v : Words} (x : Sixteen) (h : usedWords .rmd160 w = usedWords .rmd160 v) :
    usedWords .rmd160 (rmdBlock w x) = usedWords .rmd160 (rmdBlock v x) := by
  simp only [usedWords, List.cons.injEq, and_true] at h
  obtain ⟨h0, h1, h2, h3, h4⟩ := h
  have hfive : fiveOf w = fiveOf v := by rw [fiveOf, h0, h1, h2, h3, h4, fiveOf]
  simp only [usedWords, rmdBlock, rmdCombine, rmdCopy, rmdLoad, hfive]

/-- A compression function reads no word its algorithm does not use (R13, R24, R64). -/
theorem blockFunction_usedWords_congr (alg : Alg) {w v : Words} (x : Sixteen) (h : usedWords alg w = usedWords alg v) :
    usedWords alg (blockFunction alg w x) = usedWords alg (blockFunction alg v x) := by
  cases alg
  case md5 => exact md5Block_usedWords_congr x h
  case sha1 => exact sha1Block_usedWords_congr x h
  case sha256 => rw [eq_of_usedWords_sha256 h]
  case rmd160 => exact rmdBlock_usedWords_congr x h

/-- Settles O37: the message words come from the block region, the load from the used words. -/
theorem compressionIsPure : Obligations.CompressionIsPure := by
  intro alg s t hwords hblock
  refine ⟨_, _, exec_compress alg s, exec_compress alg t, ?_⟩
  rw [runCore_words, runCore_words, loadBlock_congr (c := Config.standard) (t := t) hblock]
  exact blockFunction_usedWords_congr alg _ hwords

/-! ## What an open computation holds -/

/-- The state is in a computation of `alg` that has absorbed `m` (R22 (b)). -/
structure HoldsPayload (alg : Alg) (m : List Byte) (s : State) : Prop where
  memWf : s.mem.wf
  noRequest : s.creq = none
  phase : s.phase = .active alg
  count : s.byteCount = m.length
  words : s.words = foldMessage alg (initialWords alg) m
  buffered : buffered Config.standard s = remainder m

theorem holdsPayload_setPending {alg : Alg} {m : List Byte} {s : State} (h : HoldsPayload alg m s) (rest : List HostInput) :
    HoldsPayload alg m (s.setPending rest) := ⟨h.memWf, h.noRequest, h.phase, h.count, h.words, h.buffered⟩

theorem holdsPayload_beginWith (alg : Alg) {s : State} (hwf : s.mem.wf) (hcreq : s.creq = none) :
    HoldsPayload alg [] (beginWith alg (initialWords alg) s) where
  memWf := hwf
  noRequest := hcreq
  phase := beginWith_phase _ _ _
  count := beginWith_byteCount _ _ _
  words := beginWith_words _ _ _
  buffered := buffered_beginWith _ _ _ _

/-- An absorbed chunk continues the payload (R75). -/
theorem holdsPayload_absorb {alg : Alg} {m d : List Byte} {s : State} (h : HoldsPayload alg m s) (hlen : d.length ≤ 65535)
    (hceil : m.length + d.length ≤ 2 ^ 53) : HoldsPayload alg (m ++ d) (absorb Config.standard alg d s) where
  memWf := absorb_wf _ _ _ _ hlen h.memWf
  noRequest := by rw [absorb_creq, h.noRequest]
  phase := by rw [absorb_phase, h.phase]
  count := by rw [absorb_byteCount _ _ _ _ hlen, h.count, Nat.mod_eq_of_lt (by omega), List.length_append]
  words := by rw [absorb_words _ _ _ _ hlen h.memWf, h.words, h.buffered, ← foldMessage_append]
  buffered := by rw [absorb_buffered _ _ _ _ hlen h.memWf, h.buffered, remainder_append]

theorem decodeCommand_init (alg : Alg) : decodeCommand (0#16 ++ lowHalf alg 0#2) [] = .ok (.init alg) := by
  rw [decodeCommand, rsvField_append, opField_append, lenField_append, algField_append, algOfCode_algCode]
  rfl

theorem decodeCommand_update (alg : Alg) {d : List Byte} (h : d.length ≤ 65535) :
    decodeCommand (BitVec.ofNat 16 d.length ++ lowHalf alg 1#2) d = .ok (.update alg d) := by
  have hlen : d.length = (BitVec.ofNat 16 d.length).toNat := by rw [BitVec.toNat_ofNat, Nat.mod_eq_of_lt (by omega)]
  rw [decodeCommand, rsvField_append, opField_append, lenField_append, algField_append, algOfCode_algCode,
    if_neg (by decide), if_neg (by decide), if_pos rfl, if_neg (not_not_intro hlen)]

theorem hostCommand_init (alg : Alg) : hostCommand (.init alg) = [.command (0#16 ++ lowHalf alg 0#2) []] := by
  rw [hostCommand, encode_init]

theorem hostCommand_update (alg : Alg) (d : List Byte) :
    hostCommand (.update alg d) = [.command (BitVec.ofNat 16 d.length ++ lowHalf alg 1#2) d] := by
  rw [hostCommand, encode_update]

/-- A step that finds an `INIT` presented opens the computation. -/
theorem step_hostCommand_init {alg : Alg} {rest : List HostInput} {s : State} (hcreq : s.creq = none)
    (hpending : s.pending = hostCommand (.init alg) ++ rest) :
    step s = .next (beginWith alg (initialWords alg) (s.setPending rest)) := by
  rw [hostCommand_init, List.singleton_append] at hpending
  rw [step_command hcreq hpending (decodeCommand_init alg), exec_init]

/-- A step that finds an `UPDATE` within the ceiling presented absorbs its payload. -/
theorem step_hostCommand_update {alg : Alg} {m d : List Byte} {rest : List HostInput} {s : State}
    (h : HoldsPayload alg m s) (hlen : d.length ≤ 65535) (hceil : m.length + d.length ≤ 2 ^ 53)
    (hpending : s.pending = hostCommand (.update alg d) ++ rest) :
    step s = .next (absorb Config.standard alg d (s.setPending rest)) := by
  have h' := holdsPayload_setPending h rest
  rw [hostCommand_update, List.singleton_append] at hpending
  rw [step_command h.noRequest hpending (decodeCommand_update alg hlen), exec_update]
  exact update_completes h'.phase (by rw [h'.count, standard_maxBytes]; exact hceil)

/-- A run over presented chunks: each continues the payload. -/
theorem run_chunks (alg : Alg) (chunks : List (List Byte)) (rest : List HostInput) (m : List Byte) (s : State)
    (h : HoldsPayload alg m s) (hpending : s.pending = (chunks.map (.update alg)).flatMap hostCommand ++ rest)
    (hlen : ∀ d, d ∈ chunks → d.length ≤ 65535) (hceil : m.length + chunks.flatten.length ≤ 2 ^ 53) :
    ∃ t : State, Sys2Proof.core.run chunks.length s = .next t ∧ HoldsPayload alg (m ++ chunks.flatten) t ∧
      t.pending = rest := by
  induction chunks generalizing m s with
  | nil => exact ⟨s, run_zero s, by simpa using h, hpending⟩
  | cons d chunks ih =>
    rw [List.flatten_cons, List.length_append] at hceil
    rw [List.map_cons, List.flatMap_cons, List.append_assoc] at hpending
    have hd : d.length ≤ 65535 := hlen d List.mem_cons_self
    have hstep := step_hostCommand_update h hd (by omega) hpending
    rw [List.length_cons, run_next hstep, List.flatten_cons, ← List.append_assoc]
    refine ih (m ++ d) _ (holdsPayload_absorb (holdsPayload_setPending h _) hd (by omega)) ?_ ?_ ?_
    · rw [absorb_pending, setPending_pending]
    · exact fun e he => hlen e (List.mem_cons_of_mem d he)
    · rw [List.length_append]
      omega

/-- Settles O48: `INIT` holds the empty payload whatever the residue, and each chunk continues it. -/
theorem openComputationHolds : Obligations.OpenComputationHolds := by
  intro alg chunks rest s hwf hcreq hpending hlen hceil
  rw [openComputation, List.flatMap_cons, List.append_assoc] at hpending
  have hopen := holdsPayload_beginWith alg (s := s.setPending ((chunks.map (.update alg)).flatMap hostCommand ++ rest))
    hwf hcreq
  obtain ⟨t, hrun, ht, hrest⟩ := run_chunks alg chunks rest [] _ hopen rfl hlen (by simpa using hceil)
  rw [List.nil_append] at ht
  refine ⟨t, ?_, ht.count, ht.words, ht.buffered, ?_, ht.phase, hrest⟩
  · rw [run_next (step_hostCommand_init hcreq hpending), hrun]
  · rw [index_eq_byteCount, ht.count]

end Sys2Proof.Machine
end

section
/-! PROOFS. The scratch buffer's statements (20_memory.md): the word view over four bytes (R27, R28), the host's read port
(R36), `Compress(alg)` as one request and a zero fill (R37, R64), and the runs that come to their end (R192, R212). -/

namespace Sys2Proof.Machine

open Sys2Proof.Reference
open Sys2Proof.Safety

/-! ## The word view -/

theorem toNat_append_byte {n : Nat} (x : BitVec n) (b : Byte) : (x ++ b).toNat = x.toNat * 2 ^ 8 + b.toNat := by
  rw [BitVec.toNat_append, Nat.shiftLeft_eq, Nat.mul_comm, Nat.two_pow_add_eq_or_of_lt b.isLt]

theorem extractByte_toNat (v : Word) (k : Nat) : (v.extractLsb' k 8).toNat = v.toNat / 2 ^ k % 256 := by
  rw [BitVec.extractLsb'_toNat, Nat.shiftRight_eq_div_pow]

/-- The number of R27, least significant byte first. -/
theorem wordOf_le_toNat (b0 b1 b2 b3 : Byte) :
    (wordOf .le b0 b1 b2 b3).toNat = b0.toNat + b1.toNat * 2 ^ 8 + b2.toNat * 2 ^ 16 + b3.toNat * 2 ^ 24 := by
  simp only [wordOf, toNat_append_byte]
  omega

/-- The big-endian view is the little-endian view of the bytes in reverse (R27). -/
theorem wordOf_be (b0 b1 b2 b3 : Byte) : wordOf .be b0 b1 b2 b3 = wordOf .le b3 b2 b1 b0 := rfl

/-- The number of R27, most significant byte first. -/
theorem wordOf_be_toNat (b0 b1 b2 b3 : Byte) :
    (wordOf .be b0 b1 b2 b3).toNat = b3.toNat + b2.toNat * 2 ^ 8 + b1.toNat * 2 ^ 16 + b0.toNat * 2 ^ 24 := by
  rw [wordOf_be, wordOf_le_toNat]

/-- Byte `j` of R28, least significant byte first. -/
theorem bytesOf_le_getD_toNat (v : Word) :
    ∀ {j : Nat}, j < 4 → ((bytesOf .le v).getD j 0).toNat = v.toNat / 256 ^ j % 256
  | 0, _ => extractByte_toNat v 0
  | 1, _ => extractByte_toNat v 8
  | 2, _ => extractByte_toNat v 16
  | 3, _ => extractByte_toNat v 24

/-- Byte `j` of R28, most significant byte first. -/
theorem bytesOf_be_getD (v : Word) : ∀ {j : Nat}, j < 4 → (bytesOf .be v).getD j 0 = (bytesOf .le v).getD (3 - j) 0
  | 0, _ => rfl
  | 1, _ => rfl
  | 2, _ => rfl
  | 3, _ => rfl

/-- `WordOf` undoes `BytesOf`, least significant byte first. -/
theorem wordOf_bytesOf_le (v : Word) : wordOf .le ((bytesOf .le v).getD 0 0) ((bytesOf .le v).getD 1 0)
    ((bytesOf .le v).getD 2 0) ((bytesOf .le v).getD 3 0) = v := by
  apply BitVec.eq_of_toNat_eq
  rw [wordOf_le_toNat, bytesOf_le_getD_toNat v (by omega), bytesOf_le_getD_toNat v (by omega),
    bytesOf_le_getD_toNat v (by omega), bytesOf_le_getD_toNat v (by omega)]
  have := v.isLt
  omega

/-- `WordOf` undoes `BytesOf` in either order (R28). -/
theorem wordOf_bytesOf (o : WordOrder) (v : Word) : wordOf o ((bytesOf o v).getD 0 0) ((bytesOf o v).getD 1 0)
    ((bytesOf o v).getD 2 0) ((bytesOf o v).getD 3 0) = v := by
  cases o
  case le => exact wordOf_bytesOf_le v
  case be => rw [wordOf_be]; exact wordOf_bytesOf_le v

theorem read_storeWord_inside {m : Memory} (h : m.wf) (o : WordOrder) (a : Nat) (v : Word) {j : Nat} (hj : j < 4) :
    (m.storeWord o a v).read (a + j) = (bytesOf o v).getD j 0 := by
  rw [read_storeWord h, if_pos (by omega), Nat.add_sub_cancel_left]

/-- A load after a store at the same address (R28). -/
theorem loadWord_storeWord {m : Memory} (h : m.wf) (o : WordOrder) (a : Nat) (v : Word) :
    (m.storeWord o a v).loadWord o a = v := by
  have hread (j : Nat) (hj : j < 4) := read_storeWord_inside h o a v hj
  have hfirst : (m.storeWord o a v).read a = (bytesOf o v).getD 0 0 := hread 0 (by decide)
  rw [Memory.loadWord, hfirst, hread 1 (by decide), hread 2 (by decide), hread 3 (by decide)]
  exact wordOf_bytesOf o v

/-- Settles O52: a word is the sum of its bytes at their places, and the bytes of a word are its digits to the base 256. -/
theorem wordViewLoadAfterStore : Obligations.WordViewLoadAfterStore := by
  refine ⟨fun b0 b1 b2 b3 => ⟨wordOf_le_toNat b0 b1 b2 b3, wordOf_be_toNat b0 b1 b2 b3⟩, fun m o a v hm => ?_⟩
  refine ⟨loadWord_storeWord hm o a v, fun j hj => ?_, rfl, fun p hp => ?_⟩
  · rw [read_storeWord_inside hm o a v hj]
    cases o
    case le => exact bytesOf_le_getD_toNat v hj
    case be => rw [bytesOf_be_getD v hj]; exact bytesOf_le_getD_toNat v (by omega)
  · rw [read_storeWord hm, if_neg (by omega)]

/-! ## The read port -/

/-- Settles O9: the port takes the read from the list and answers by `BUFSZ` alone. -/
theorem hostReadPort : Obligations.HostReadPort := by
  intro s a rest hcreq hpending
  rw [step_read hcreq hpending, ← standard_bufsz]
  exact ⟨readPort_inside, readPort_outside⟩

/-! ## `Compress(alg)` -/

theorem exec_decodeRequest (alg : Alg) (s : State) :
    exec (decodeRequest (algCode alg)) s = .next (runCore Config.standard alg s) := by
  rw [decodeRequest, algOfCode_algCode, exec_compress]

/-- The write half of R64: words, working registers and buffer, and no other field. -/
theorem compress_eq_update (c : Config) (alg : Alg) (s : State) :
    compress c alg s = { s with
      words := (runCore c alg s).words, work := (runCore c alg s).work, mem := (compress c alg s).mem } := by
  apply state_ext <;> simp [compress_words, runCore_words]

/-- The read half of R64: other words and another counter change nothing but the words that come out. -/
theorem compress_congr_context (c : Config) (alg : Alg) (s : State) (hi lo : Word) (w : Words) :
    compress c alg { s with words := w, countHi := hi, countLo := lo } =
      { compress c alg s with
        words := blockFunction alg w (loadBlock c (wordOrder alg) s), countHi := hi, countLo := lo } := by
  apply state_ext <;> simp [compress_words, loadBlock]

/-- Settles O36: the request is the core, the zero fill follows, and the core reads the used words and the block only. -/
theorem compressServesRequestThenZeroes : Obligations.CompressServesRequestThenZeroes := by
  intro alg s
  refine ⟨_, exec_decodeRequest alg s, rfl, rfl, ?_, runCore_work _ alg s,
    compress_read Config.standard alg s, compress_read_outside Config.standard alg s, compress_eq_update _ alg s,
    fun hi lo w hw => ?_⟩
  · rw [runCore_words]
    exact blockFunction_upperSame alg _ _
  · rw [compress_congr_context, runCore_words]
    exact ⟨blockFunction_usedWords_congr alg _ hw, blockFunction_upperSame alg w _, rfl⟩

/-! ## What the contract allows next, by algorithm -/

theorem contractNext_init (p : Phase) (n : Nat) (alg : Alg) : contractNext p n (.init alg) = some (.active alg, 0) := by
  cases alg <;> rfl

theorem contractNext_update (p : Phase) (n : Nat) (alg : Alg) (d : List Byte) : contractNext p n (.update alg d) =
    if p = .active alg ∧ n + d.length ≤ 2 ^ 53 then some (p, n + d.length) else none := by
  cases alg <;> rfl

theorem contractNext_final (p : Phase) (n : Nat) (alg : Alg) :
    contractNext p n (.final alg) = if p = .active alg then some (.idle, 0) else none := by
  cases alg <;> rfl

theorem finalize_byteCount (c : Config) (alg : Alg) (s : State) : (finalize c alg s).byteCount = 0 := by
  rw [State.byteCount, finalize_countHi, finalize_countLo]
  rfl

/-- A host command that completes leaves the phase and the byte count the contract says. -/
theorem contractNext_of_exec_next {w : Word} {d : List Byte} {i : Instr} {s t : State} (hd : decodeCommand w d = .ok i)
    (h : exec i s = .next t) : contractNext s.phase s.byteCount i = some (t.phase, t.byteCount) := by
  rcases decodeCommand_ok_cases hd with ⟨alg, rfl⟩ | ⟨alg, rfl, hlen⟩ | ⟨alg, rfl⟩
  · rw [exec_init] at h
    cases h
    rw [contractNext_init, beginWith_phase, beginWith_byteCount]
  · rw [exec_update] at h
    obtain ⟨hphase, hceil, rfl⟩ := eq_absorb_of_update_next h
    rw [standard_maxBytes] at hceil
    rw [contractNext_update, if_pos ⟨hphase, hceil⟩, absorb_phase, absorb_byteCount _ _ _ _ hlen,
      Nat.mod_eq_of_lt (by omega)]
  · rw [exec_final] at h
    obtain ⟨hphase, rfl⟩ := eq_finalize_of_finish_next h
    rw [contractNext_final, if_pos hphase, finalize_phase, finalize_byteCount]

/-- An instruction the contract allows completes. -/
theorem exec_next_of_contractNext {i : Instr} {s : State} {q : Phase × Nat}
    (h : contractNext s.phase s.byteCount i = some q) : ∃ t, exec i s = .next t := by
  rcases instr_cases i with ⟨alg, rfl⟩ | ⟨alg, d, rfl⟩ | ⟨alg, rfl⟩ | ⟨alg, rfl⟩
  · exact ⟨_, exec_init alg s⟩
  · rw [contractNext_update, Option.ite_none_right_eq_some] at h
    obtain ⟨⟨hphase, hceil⟩, -⟩ := h
    exact ⟨_, (exec_update alg d s).trans (update_completes hphase hceil)⟩
  · rw [contractNext_final, Option.ite_none_right_eq_some] at h
    exact ⟨_, (exec_final alg s).trans (finish_completes h.1)⟩
  · exact ⟨_, exec_compress alg s⟩

/-! ## Runs inside the contract -/

@[simp] theorem resetCore_phase (s : State) : (resetCore s).phase = .idle := rfl

@[simp] theorem resetCore_byteCount (s : State) : (resetCore s).byteCount = 0 := by
  simp [resetCore, State.reset, State.byteCount, byteCountOf]

theorem insideContract_nil (p : Phase) (n : Nat) : insideContract p n [] = true := by rw [insideContract]

theorem insideContract_reset (p : Phase) (n : Nat) (rest : List HostInput) :
    insideContract p n (.reset :: rest) = insideContract .idle 0 rest := by rw [insideContract]

theorem insideContract_read (p : Phase) (n : Nat) (a : BitVec 7) (rest : List HostInput) :
    insideContract p n (.read a :: rest) = true ↔ a.toNat < 68 ∧ insideContract p n rest = true := by
  rw [insideContract, Bool.and_eq_true, decide_eq_true_iff]

theorem insideContract_command (p : Phase) (n : Nat) (w : Word) (d : List Byte) (rest : List HostInput) :
    insideContract p n (.command w d :: rest) = true ↔
      ∃ i q, decodeCommand w d = .ok i ∧ contractNext p n i = some q ∧ insideContract q.1 q.2 rest = true := by
  rw [insideContract]
  cases hd : decodeCommand w d with
  | error e => simp
  | ok i =>
    rcases hq : contractNext p n i with _ | ⟨r, k⟩
    · simp [hq]
    · simp [hq]

theorem step_command_next {s t : State} {w : Word} {d : List Byte} {rest : List HostInput} (hcreq : s.creq = none)
    (hpending : s.pending = .command w d :: rest) :
    step s = .next t ↔ ∃ i, decodeCommand w d = .ok i ∧ exec i (s.setPending rest) = .next t := by
  cases hd : decodeCommand w d with
  | ok i => simp [step_command hcreq hpending hd]
  | error e =>
    cases e with
    | reservedEncoding => simp [step_reserved hcreq hpending hd]
    | payloadLength => simp [step_payload hcreq hpending hd]

theorem step_read_next {s t : State} {a : BitVec 7} {rest : List HostInput} (hcreq : s.creq = none)
    (hpending : s.pending = .read a :: rest) :
    step s = .next t ↔ a.toNat < 68 ∧ (s.setPending rest).setReceived (s.received ++ [s.mem.read a.toNat]) = t := by
  rw [step_read hcreq hpending]
  rcases Nat.lt_or_ge a.toNat 68 with ha | ha
  · simp [readPort_inside (c := Config.standard) ha, ha]
  · simp [readPort_outside (c := Config.standard) ha, ha]

/-- A step that completes has taken the host's oldest input and leaves no request (R214). -/
theorem step_takes_input {s t : State} {q : HostInput} {rest : List HostInput} (hcreq : s.creq = none)
    (hpending : s.pending = q :: rest) (h : step s = .next t) : t.creq = none ∧ t.pending = rest := by
  cases q with
  | reset =>
    rw [step_reset hcreq hpending] at h
    cases h
    exact ⟨rfl, rfl⟩
  | read a =>
    obtain ⟨-, rfl⟩ := (step_read_next hcreq hpending).1 h
    exact ⟨hcreq, rfl⟩
  | command w d =>
    obtain ⟨i, -, he⟩ := (step_command_next hcreq hpending).1 h
    obtain ⟨hpend, -, hreq⟩ := instructionsLeaveHostSide i _ t he
    exact ⟨hreq.trans hcreq, hpend⟩

/-- One input of the grammar is one step that completes. -/
theorem insideContract_cons_iff_step {s : State} {q : HostInput} {rest : List HostInput} (hcreq : s.creq = none)
    (hpending : s.pending = q :: rest) :
    insideContract s.phase s.byteCount (q :: rest) = true ↔
      ∃ t, step s = .next t ∧ insideContract t.phase t.byteCount rest = true := by
  cases q with
  | reset => simp [insideContract_reset, step_reset hcreq hpending]
  | read a =>
    simp only [insideContract_read, step_read_next hcreq hpending, and_assoc, exists_and_left, exists_eq_left']
    exact Iff.rfl
  | command w d =>
    simp only [insideContract_command, step_command_next hcreq hpending]
    constructor
    · rintro ⟨i, p, hd, hnext, hrest⟩
      obtain ⟨t, ht⟩ := exec_next_of_contractNext (s := s.setPending rest) hnext
      cases (contractNext_of_exec_next hd ht).symm.trans hnext
      exact ⟨t, ⟨i, hd, ht⟩, hrest⟩
    · rintro ⟨t, ⟨i, hd, ht⟩, hrest⟩
      exact ⟨i, _, hd, contractNext_of_exec_next (s := s.setPending rest) hd ht, hrest⟩

/-- A run completes when its first step and the rest of it do. -/
theorem run_succ_next_iff (n : Nat) (s : State) : (∃ u, Sys2Proof.core.run (n + 1) s = .next u) ↔
    ∃ t, step s = .next t ∧ ∃ u, Sys2Proof.core.run n t = .next u := by
  cases hs : step s with
  | next t => simp [run_next hs]
  | fault r => simp [run_fault hs]
  | refused r => simp [run_refused hs]

/-- The grammar decides the run, whatever the host still presents. -/
theorem insideContract_iff_run (inputs : List HostInput) (s : State) (hcreq : s.creq = none)
    (hpending : s.pending = inputs) :
    insideContract s.phase s.byteCount inputs = true ↔ ∃ u, Sys2Proof.core.run inputs.length s = .next u := by
  induction inputs generalizing s with
  | nil => exact iff_of_true (insideContract_nil _ _) ⟨s, run_zero s⟩
  | cons q rest ih =>
    rw [insideContract_cons_iff_step hcreq hpending, List.length_cons, run_succ_next_iff]
    refine exists_congr fun t => and_congr_right fun hstep => ?_
    obtain ⟨ht, hrest⟩ := step_takes_input hcreq hpending hstep
    exact ih t ht hrest

/-- Settles O47: by induction on what the host presents, one input a step. -/
theorem runsToEndExactlyInsideContract : Obligations.RunsToEndExactlyInsideContract := fun s hcreq =>
  insideContract_iff_run s.pending s hcreq rfl

end Sys2Proof.Machine
end

section
/-! PROOFS. The encoding's statements (30_encoding.md): decoder and encoder are inverse to each other (R41 to R45), the opcode
map as match and mask (R45), the reserved words (R46, R197), the request line (R43, R64), and a whole computation (R50, R92). -/

namespace Sys2Proof.Machine

open Sys2Proof.Reference
open Sys2Proof.Safety

/-! ## Decoding what is encoded -/

theorem decodeCommand_final (alg : Alg) : decodeCommand (0#16 ++ lowHalf alg 2#2) [] = .ok (.final alg) := by
  rw [decodeCommand, rsvField_append, opField_append, lenField_append, algField_append, algOfCode_algCode]
  rfl

theorem decodeRequest_algCode (alg : Alg) : decodeRequest (algCode alg) = .compress alg := by
  rw [decodeRequest, algOfCode_algCode]

theorem update_wellFormed_iff (alg : Alg) (d : List Byte) :
    (Instr.update alg d).wellFormed = true ↔ d.length ≤ 65535 := by
  cases alg <;> exact decide_eq_true_iff

theorem init_wellFormed (alg : Alg) : (Instr.init alg).wellFormed = true := by cases alg <;> rfl

theorem final_wellFormed (alg : Alg) : (Instr.final alg).wellFormed = true := by cases alg <;> rfl

theorem compress_wellFormed (alg : Alg) : (Instr.compress alg).wellFormed = true := by cases alg <;> rfl

/-- Settles O1: one decoder lemma for each kind of instruction. -/
theorem decodeOfEncode : Obligations.DecodeOfEncode := by
  intro i hwf
  rcases instr_cases i with ⟨alg, rfl⟩ | ⟨alg, d, rfl⟩ | ⟨alg, rfl⟩ | ⟨alg, rfl⟩
  · rw [encode_init, decode, decodeCommand_init]
  · rw [encode_update, decode, decodeCommand_update alg ((update_wellFormed_iff alg d).1 hwf)]
  · rw [encode_final, decode, decodeCommand_final]
  · rw [encode_compress, decode, decodeRequest_algCode]

/-- Settles O4: each word is the encoding of its instruction, evaluated. -/
theorem handWrittenWordsDecode : Obligations.HandWrittenWordsDecode := by
  refine ⟨decodeCommand_init .md5, decodeCommand_init .rmd160, decodeCommand_update .sha256 (d := [0x61#8, 0x62#8, 0x63#8])
    (by decide), fun data hlen => ?_, decodeCommand_final .rmd160, decodeCommand_update .sha1 (d := []) (by decide),
    decodeCommand_final .sha256, decodeRequest_algCode .sha256⟩
  have hdecode := decodeCommand_update .md5 hlen.le
  rwa [hlen] at hdecode

/-! ## The fields of a command word -/

/-- A command word is its four fields (R41, R42). -/
theorem word_eq_fields (w : Word) : w = lenField w ++ (rsvField w ++ algField w ++ opField w : BitVec 16) := by
  rw [lenField, rsvField, algField, opField, BitVec.extractLsb'_append_extractLsb'_eq_extractLsb' (by rfl),
    BitVec.extractLsb'_append_extractLsb'_eq_extractLsb' (by rfl)]
  exact BitVec.extractLsb'_eq_self.symm.trans
    (BitVec.extractLsb'_append_extractLsb'_eq_extractLsb' (start₁ := 0) (len₁ := 16) (len₂ := 16) rfl).symm

theorem eq_append_lowHalf_iff (w : Word) (n : BitVec 16) (alg : Alg) (op : BitVec 2) : w = n ++ lowHalf alg op ↔
    lenField w = n ∧ rsvField w = 0#12 ∧ algField w = algCode alg ∧ opField w = op := by
  constructor
  · rintro rfl
    exact ⟨lenField_append _ _, rsvField_append _ _ _, algField_append _ _ _, opField_append _ _ _⟩
  · rintro ⟨hlen, hrsv, halg, hop⟩
    rw [word_eq_fields w, hlen, hrsv, halg, hop, lowHalf]

theorem lenField_toNat (w : Word) : (lenField w).toNat = w.toNat / 2 ^ 16 := by
  rw [lenField, BitVec.extractLsb'_toNat, Nat.shiftRight_eq_div_pow, Nat.mod_eq_of_lt (by omega)]

theorem rsvField_toNat (w : Word) : (rsvField w).toNat = w.toNat / 2 ^ 4 % 2 ^ 12 := by
  rw [rsvField, BitVec.extractLsb'_toNat, Nat.shiftRight_eq_div_pow]

theorem opField_toNat (w : Word) : (opField w).toNat = w.toNat % 4 := by
  rw [opField, BitVec.extractLsb'_toNat, Nat.shiftRight_zero]

theorem opField_cases (w : Word) : opField w = 0#2 ∨ opField w = 1#2 ∨ opField w = 2#2 ∨ opField w = 3#2 := by
  generalize opField w = op
  revert op
  decide

/-! ## The opcode map as match and mask -/

/-- The row of a format C instruction (R41): every bit is matched. -/
def rowC (alg : Alg) (op : BitVec 2) (i : Instr) : Row := ⟨0#16 ++ lowHalf alg op, 0xFFFFFFFF#32, fun _ => i⟩

/-- The row of a format U instruction (R42): `len` is left out of the match. -/
def rowU (alg : Alg) : Row := ⟨0#16 ++ lowHalf alg 1#2, 0x0000FFFF#32, .update alg⟩

/-- The four algorithms, in the order of their codes. -/
def algorithms : List Alg := [.md5, .sha1, .sha256, .rmd160]

theorem mem_algorithms (alg : Alg) : alg ∈ algorithms := by cases alg <;> decide

/-- The table of R45 is three rows an algorithm. -/
theorem hostRows_eq : hostRows = algorithms.map (fun alg => rowC alg 0#2 (.init alg)) ++ algorithms.map rowU ++
    algorithms.map (fun alg => rowC alg 2#2 (.final alg)) := rfl

theorem mem_hostRows_iff {r : Row} : r ∈ hostRows ↔
    ∃ alg, r = rowC alg 0#2 (.init alg) ∨ r = rowU alg ∨ r = rowC alg 2#2 (.final alg) := by
  simp only [hostRows_eq, List.mem_append, List.mem_map, mem_algorithms, true_and, exists_or, or_assoc, eq_comm]

theorem rowC_selects_iff (alg : Alg) (op : BitVec 2) (i : Instr) (w : Word) : (rowC alg op i).selects w = true ↔
    lenField w = 0#16 ∧ rsvField w = 0#12 ∧ algField w = algCode alg ∧ opField w = op := by
  have hmask : w &&& 0xFFFFFFFF#32 = w := BitVec.and_allOnes
  rw [Row.selects, rowC, beq_iff_eq, hmask, eq_append_lowHalf_iff]

/-- Under the mask of format U two words with the same `len` agree when they are equal. -/
theorem append_and_lowMask_eq_iff (n l k : BitVec 16) :
    (n ++ l : Word) &&& 0x0000FFFF#32 = 0#16 ++ k ↔ (n ++ l : Word) = n ++ k := by
  have hmask : (n ++ l : Word) &&& 0x0000FFFF#32 = 0#16 ++ l := by
    rw [show (0x0000FFFF#32 : Word) = 0#16 ++ BitVec.allOnes 16 from rfl, BitVec.and_append, BitVec.and_zero,
      BitVec.and_allOnes]
  rw [hmask, BitVec.append_right_inj, BitVec.append_right_inj]

theorem rowU_selects_iff (alg : Alg) (w : Word) :
    (rowU alg).selects w = true ↔ rsvField w = 0#12 ∧ algField w = algCode alg ∧ opField w = 1#2 := by
  have hmask := append_and_lowMask_eq_iff (lenField w) (rsvField w ++ algField w ++ opField w) (lowHalf alg 1#2)
  rw [← word_eq_fields w] at hmask
  rw [Row.selects, rowU, beq_iff_eq, hmask, eq_append_lowHalf_iff]
  exact and_iff_right rfl

/-- The decoder on a word that selects a row: the payload's length decides (R217). -/
theorem decodeCommand_of_selects {w : Word} {r : Row} (hr : r ∈ hostRows) (hsel : r.selects w = true) (d : List Byte) :
    decodeCommand w d = if d.length = (lenField w).toNat then .ok (r.instr d) else .error .payloadLength := by
  obtain ⟨alg, rfl | rfl | rfl⟩ := mem_hostRows_iff.1 hr
  · obtain ⟨hlen, hrsv, halg, hop⟩ := (rowC_selects_iff _ _ _ _).1 hsel
    simp [decodeCommand, hlen, hrsv, halg, hop, algOfCode_algCode, rowC]
  · obtain ⟨hrsv, halg, hop⟩ := (rowU_selects_iff _ _).1 hsel
    simp [decodeCommand, hrsv, halg, hop, algOfCode_algCode, rowU]
  · obtain ⟨hlen, hrsv, halg, hop⟩ := (rowC_selects_iff _ _ _ _).1 hsel
    simp [decodeCommand, hlen, hrsv, halg, hop, algOfCode_algCode, rowC]

/-- The encoder on a row's instruction: it writes the word that selects the row. -/
theorem encode_of_selects {w : Word} {r : Row} {d : List Byte} (hr : r ∈ hostRows) (hsel : r.selects w = true)
    (hd : d.length = (lenField w).toNat) : encode (r.instr d) = .command w d ∧ (r.instr d).wellFormed = true := by
  obtain ⟨alg, rfl | rfl | rfl⟩ := mem_hostRows_iff.1 hr
  · have hfields := (rowC_selects_iff _ _ _ _).1 hsel
    obtain rfl : d = [] := List.eq_nil_of_length_eq_zero (by rw [hd, hfields.1]; rfl)
    exact ⟨by rw [(eq_append_lowHalf_iff _ _ _ _).2 hfields]; exact encode_init alg, init_wellFormed alg⟩
  · have hfields := (rowU_selects_iff _ _).1 hsel
    have hlen : lenField w = BitVec.ofNat 16 d.length := by rw [hd, BitVec.ofNat_toNat, BitVec.setWidth_eq]
    exact ⟨by rw [(eq_append_lowHalf_iff _ _ _ _).2 ⟨hlen, hfields⟩]; exact encode_update alg d,
      (update_wellFormed_iff alg d).2 (by omega)⟩
  · have hfields := (rowC_selects_iff _ _ _ _).1 hsel
    obtain rfl : d = [] := List.eq_nil_of_length_eq_zero (by rw [hd, hfields.1]; rfl)
    exact ⟨by rw [(eq_append_lowHalf_iff _ _ _ _).2 hfields]; exact encode_final alg, final_wellFormed alg⟩

/-- Every mask has the low four bits, `alg` and `op`. -/
theorem hostRows_mask_low : ∀ r ∈ hostRows, r.mask &&& 0xF#32 = 0xF#32 := by decide

theorem low_of_selects {w : Word} {r : Row} (hr : r ∈ hostRows) (hsel : r.selects w = true) :
    w &&& 0xF#32 = r.pattern &&& 0xF#32 := by
  rw [Row.selects, beq_iff_eq] at hsel
  rw [← hsel, BitVec.and_assoc, hostRows_mask_low r hr]

/-- No two rows have the same `alg` and `op`. -/
theorem hostRows_low_distinct : hostRows.Pairwise fun r q => r.pattern &&& 0xF#32 ≠ q.pattern &&& 0xF#32 := by decide

/-- Settles O3: the fields of a selected word are the row's, and the low four bits tell the rows apart. -/
theorem opcodeMapDecodes : Obligations.OpcodeMapDecodes := by
  refine ⟨fun w d r hr hsel hd => ?_, ?_, decodeRequest_algCode .md5, decodeRequest_algCode .sha1,
    decodeRequest_algCode .sha256, decodeRequest_algCode .rmd160⟩
  · rw [decodeCommand_of_selects hr hsel, if_pos (hd.trans (lenField_toNat w).symm)]
  · refine hostRows_low_distinct.imp_of_mem fun hr hq hne w hsel => hne ?_
    rw [← low_of_selects hr hsel.1, low_of_selects hq hsel.2]

/-! ## Reserved words -/

/-- A reserved word (R46): `op = 3`, or `rsv` not zero, or a format C word with `len` not zero. -/
def Reserved (w : Word) : Prop :=
  opField w = 3#2 ∨ rsvField w ≠ 0#12 ∨ (opField w = 0#2 ∨ opField w = 2#2) ∧ lenField w ≠ 0#16

theorem reserved_iff_toNat (w : Word) : Reserved w ↔ (w.toNat % 4 = 3 ∨ w.toNat / 2 ^ 4 % 2 ^ 12 ≠ 0 ∨
    ((w.toNat % 4 = 0 ∨ w.toNat % 4 = 2) ∧ w.toNat / 2 ^ 16 ≠ 0)) := by
  rw [← opField_toNat, ← rsvField_toNat, ← lenField_toNat, Reserved]
  simp only [← BitVec.toNat_inj, ne_eq]
  exact Iff.rfl

theorem not_reserved_of_selects {w : Word} {r : Row} (hr : r ∈ hostRows) (hsel : r.selects w = true) : ¬ Reserved w := by
  obtain ⟨alg, rfl | rfl | rfl⟩ := mem_hostRows_iff.1 hr
  · obtain ⟨hlen, hrsv, -, hop⟩ := (rowC_selects_iff _ _ _ _).1 hsel
    simp [Reserved, hlen, hrsv, hop]
  · obtain ⟨hrsv, -, hop⟩ := (rowU_selects_iff _ _).1 hsel
    simp [Reserved, hrsv, hop]
  · obtain ⟨hlen, hrsv, -, hop⟩ := (rowC_selects_iff _ _ _ _).1 hsel
    simp [Reserved, hlen, hrsv, hop]

/-- A word that is not reserved selects the row of its `alg` and `op`. -/
theorem exists_row_of_not_reserved {w : Word} (h : ¬ Reserved w) : ∃ r, r ∈ hostRows ∧ r.selects w = true := by
  rw [Reserved, not_or, not_or, not_not, not_and, not_not] at h
  obtain ⟨hop3, hrsv, hlen⟩ := h
  have hcode := (algCode_algOfCode (algField w)).symm
  rcases opField_cases w with hop | hop | hop | hop
  · exact ⟨_, mem_hostRows_iff.2 ⟨_, .inl rfl⟩, (rowC_selects_iff _ _ _ _).2 ⟨hlen (.inl hop), hrsv, hcode, hop⟩⟩
  · exact ⟨_, mem_hostRows_iff.2 ⟨_, .inr (.inl rfl)⟩, (rowU_selects_iff _ _).2 ⟨hrsv, hcode, hop⟩⟩
  · exact ⟨_, mem_hostRows_iff.2 ⟨_, .inr (.inr rfl)⟩, (rowC_selects_iff _ _ _ _).2 ⟨hlen (.inr hop), hrsv, hcode, hop⟩⟩
  · exact absurd hop hop3

theorem selects_no_row_iff_reserved (w : Word) : (∀ r, r ∈ hostRows → r.selects w = false) ↔ Reserved w := by
  constructor
  · intro h
    by_contra hres
    obtain ⟨r, hr, hsel⟩ := exists_row_of_not_reserved hres
    exact Bool.false_ne_true ((h r hr).symm.trans hsel)
  · exact fun hres r hr => Bool.eq_false_iff.2 fun hsel => not_reserved_of_selects hr hsel hres

/-- The payload is not looked at: the reserved words are refused first (R192). -/
theorem decodeCommand_reserved {w : Word} (d : List Byte) (h : Reserved w) :
    decodeCommand w d = .error .reservedEncoding := by
  by_cases hrsv : rsvField w = 0#12
  · rcases h with hop | hne | ⟨hop | hop, hlen⟩
    · simp [decodeCommand, hrsv, hop]
    · exact absurd hrsv hne
    · simp [decodeCommand, hrsv, hop, hlen]
    · simp [decodeCommand, hrsv, hop, hlen]
  · rw [decodeCommand, if_pos hrsv]

/-- Settles O5: the fields say which words select no row, and the decoder asks for the same fields first. -/
theorem reservedWordsRefused : Obligations.ReservedWordsRefused := by
  refine ⟨fun w => (selects_no_row_iff_reserved w).trans (reserved_iff_toNat w), ?_,
    fun code => ⟨algOfCode code, rfl, algCode_algOfCode code⟩⟩
  intro s w payload rest hcreq hpending hnone
  exact step_reserved hcreq hpending (decodeCommand_reserved payload ((selects_no_row_iff_reserved w).1 hnone))

/-! ## Encoding what was decoded -/

/-- What decodes has selected a row, with a payload of the length its word counts. -/
theorem decodeCommand_ok_row {w : Word} {d : List Byte} {i : Instr} (h : decodeCommand w d = .ok i) :
    ∃ r, r ∈ hostRows ∧ r.selects w = true ∧ d.length = (lenField w).toNat ∧ i = r.instr d := by
  have hres : ¬ Reserved w := fun hres => by
    rw [decodeCommand_reserved d hres] at h
    cases h
  obtain ⟨r, hr, hsel⟩ := exists_row_of_not_reserved hres
  rw [decodeCommand_of_selects hr hsel] at h
  split at h
  case isTrue hd => cases h; exact ⟨r, hr, hsel, hd, rfl⟩
  case isFalse => cases h

/-- Settles O2: the word has selected the row of the instruction, and the encoder writes the word that does. -/
theorem encodeOfDecode : Obligations.EncodeOfDecode := by
  intro e i h
  cases e with
  | command w d =>
    obtain ⟨r, hr, hsel, hd, rfl⟩ := decodeCommand_ok_row h
    exact encode_of_selects hr hsel hd
  | request code =>
    cases h
    exact ⟨by rw [decodeRequest, encode_compress, algCode_algOfCode], compress_wellFormed _⟩

/-! ## The request line -/

/-- Settles O7: a request is fetched first, and its code decodes to the compression of its algorithm. -/
theorem stepServesRequest : Obligations.StepServesRequest := by
  intro s alg hcreq
  rw [step_request hcreq, decodeRequest_algCode]
  rfl

/-! ## A whole computation -/

theorem hostCommand_final (alg : Alg) : hostCommand (.final alg) = [.command (0#16 ++ lowHalf alg 2#2) []] := by
  rw [hostCommand, encode_final]

/-- A step that finds a `FINAL` of the computation in progress presented finishes it. -/
theorem step_hostCommand_final {alg : Alg} {rest : List HostInput} {s : State} (hcreq : s.creq = none)
    (hphase : s.phase = .active alg) (hpending : s.pending = hostCommand (.final alg) ++ rest) :
    step s = .next (finalize Config.standard alg (s.setPending rest)) := by
  rw [hostCommand_final, List.singleton_append] at hpending
  rw [step_command hcreq hpending (decodeCommand_final alg), exec_final]
  exact finish_completes hphase

/-- `INIT` and chunks presented: the run holds their payload, whatever the residue (R75). -/
theorem run_openComputation {alg : Alg} {chunks : List (List Byte)} {rest : List HostInput} {s : State} (hwf : s.mem.wf)
    (hcreq : s.creq = none) (hpending : s.pending = openComputation alg chunks ++ rest)
    (hlen : ∀ d, d ∈ chunks → d.length ≤ 65535) (hceil : chunks.flatten.length ≤ 2 ^ 53) :
    ∃ t : State, Sys2Proof.core.run (chunks.length + 1) s = .next t ∧ HoldsPayload alg chunks.flatten t ∧
      t.pending = rest := by
  rw [openComputation, List.flatMap_cons, List.append_assoc] at hpending
  rw [run_next (step_hostCommand_init hcreq hpending), ← List.nil_append chunks.flatten]
  exact run_chunks alg chunks rest [] _ (holdsPayload_beginWith alg hwf hcreq) rfl hlen (by simpa using hceil)

/-- `Finalize` of a computation that holds `m` writes the hash text of `m` (R92). -/
theorem finalize_holdsPayload_read {alg : Alg} {m : List Byte} {s : State} (h : HoldsPayload alg m s) {p : Nat}
    (hp : p < 68) : (finalize Config.standard alg s).mem.read p = (hashText alg m).getD p 0 := by
  rw [finalize_read Config.standard alg s standard_standardOrder h.memWf p hp, h.words, h.buffered, h.count,
    ← foldMessage_append, hashText]

/-- A run over presented commands leaves what the host has read as it was. -/
theorem run_commands_received {commands rest : List HostInput} {s t : State} (hcreq : s.creq = none)
    (hpending : s.pending = commands ++ rest) (hcommands : ∀ q, q ∈ commands → ∃ w d, q = .command w d)
    (hrun : Sys2Proof.core.run commands.length s = .next t) : t.received = s.received := by
  induction commands generalizing s with
  | nil =>
    rw [List.length_nil, run_zero] at hrun
    cases hrun
    rfl
  | cons q commands ih =>
    obtain ⟨w, d, rfl⟩ := hcommands q List.mem_cons_self
    obtain ⟨u, hstep, -⟩ := (run_succ_next_iff commands.length s).1 ⟨t, hrun⟩
    rw [List.length_cons, run_next hstep] at hrun
    obtain ⟨hu, hrest⟩ := step_takes_input hcreq hpending hstep
    obtain ⟨i, -, hexec⟩ := (step_command_next hcreq hpending).1 hstep
    rw [ih hu hrest (fun q hq => hcommands q (List.mem_cons_of_mem _ hq)) hrun]
    exact (instructionsLeaveHostSide i _ u hexec).2.1

theorem mem_hostCommand {i : Instr} {q : HostInput} (h : q ∈ hostCommand i) : ∃ w d, q = .command w d := by
  unfold hostCommand at h
  split at h
  · exact ⟨_, _, List.mem_singleton.1 h⟩
  · cases h

theorem mem_computation {alg : Alg} {chunks : List (List Byte)} {q : HostInput} (h : q ∈ computation alg chunks) :
    ∃ w d, q = .command w d := by
  rw [computation, openComputation, List.mem_append, List.mem_flatMap] at h
  rcases h with ⟨i, -, hq⟩ | hq
  · exact mem_hostCommand hq
  · exact mem_hostCommand hq

theorem computation_length (alg : Alg) (chunks : List (List Byte)) : (computation alg chunks).length = chunks.length + 2 := by
  simp [computation, openComputation, hostCommand_init, hostCommand_update, hostCommand_final, List.flatMap_map]

/-- Settles O49: the open computation holds the whole payload, and `FINAL` writes its hash text. -/
theorem wholeComputationHashesMessage : Obligations.WholeComputationHashesMessage := by
  intro alg chunks rest s hwf hcreq hpending hlen hceil
  have hopen : s.pending = openComputation alg chunks ++ (hostCommand (.final alg) ++ rest) := by
    rw [hpending, computation, List.append_assoc]
  obtain ⟨t, hrun, ht, hfinal⟩ := run_openComputation hwf hcreq hopen hlen hceil
  have hrun2 : Sys2Proof.core.run (chunks.length + 2) s = .next (finalize Config.standard alg (t.setPending rest)) := by
    rw [run_append 1 hrun, run_next (step_hostCommand_final ht.noRequest ht.phase hfinal), run_zero]
  refine ⟨_, hrun2, fun p hp => finalize_holdsPayload_read (holdsPayload_setPending ht rest) hp, finalize_words _ _ _,
    finalize_countLo _ _ _, finalize_countHi _ _ _, finalize_phase _ _ _, finalize_pending _ _ _, ?_⟩
  exact run_commands_received hcreq hpending (fun q => mem_computation) (by rw [computation_length, hrun2])

end Sys2Proof.Machine
end

section
/-! PROOFS. The statements about `INIT` and `UPDATE` (40_init_update.md): what `INIT` loads (R65 to R68), what `UPDATE`
absorbs and counts (R62, R63, R69 to R72), the empty `UPDATE` (R203), chunking (R73), the byte-serial form (R74), and the
contract that decides which host command completes (R60, R80, R192, R193). -/

namespace Sys2Proof.Machine

open Sys2Proof.Reference
open Sys2Proof.Safety

/-! ## INIT -/

theorem beginWith_eq_update (alg : Alg) (iv : Words) (s : State) :
    beginWith alg iv s = { s with words := iv, countLo := 0, countHi := 0, phase := .active alg } := rfl

/-- `INIT` writes the context and `phase` and no other field (R65 to R68). -/
theorem exec_init_eq_update (alg : Alg) (s : State) : exec (.init alg) s =
    .next { s with words := initialWords alg, countLo := 0, countHi := 0, phase := .active alg } := by
  rw [exec_init, beginWith_eq_update]

/-- Settles O13: the frame of `INIT` at each algorithm's initial words, and the words of format C with `op = 0`. -/
theorem initLoadsInitialWords : Obligations.InitLoadsInitialWords :=
  ⟨exec_init_eq_update .md5, exec_init_eq_update .sha1, exec_init_eq_update .sha256, exec_init_eq_update .rmd160,
    encode_init .md5, encode_init .sha1, encode_init .sha256, encode_init .rmd160⟩

/-! ## UPDATE -/

/-- Inside the contract `UPDATE` is `Absorb` (R60, R69 to R72). -/
theorem exec_update_completes {alg : Alg} {data : List Byte} {s : State} (hphase : s.phase = .active alg)
    (hceil : s.byteCount + data.length ≤ 2 ^ 53) :
    exec (.update alg data) s = .next (absorb Config.standard alg data s) :=
  (exec_update alg data s).trans (update_completes hphase hceil)

/-- Under the ceiling the 64-bit counter does not wrap (R62, R196). -/
theorem absorb_byteCount_of_ceiling (c : Config) (alg : Alg) {data : List Byte} {s : State} (hlen : data.length ≤ 65535)
    (hceil : s.byteCount + data.length ≤ 2 ^ 53) :
    (absorb c alg data s).byteCount = s.byteCount + data.length := by
  rw [absorb_byteCount c alg data s hlen, Nat.mod_eq_of_lt (by omega)]

/-- The counter after `Absorb` as the pair `AddCount` gives (R62). -/
theorem absorb_count_eq_addCount (c : Config) (alg : Alg) (data : List Byte) (s : State) :
    ((absorb c alg data s).countHi, (absorb c alg data s).countLo) = addCount s.countHi s.countLo (lenWord data) := by
  obtain ⟨hlo, hhi⟩ := absorb_count c alg data s
  exact Prod.ext hhi hlo

section WithoutCompression
variable (c : Config) (alg : Alg) (data : List Byte) (s : State) (hshort : s.index + data.length < 64)
include hshort

theorem absorb_append_words : (absorb c alg data s).words = s.words := by
  rw [absorb_append c alg data s hshort, writeBlock_words, countBytes_words]

theorem absorb_append_mem : (absorb c alg data s).mem = s.mem.writeBytes (c.hdr + s.index) data := by
  rw [absorb_append c alg data s hshort, writeBlock_mem, countBytes_mem]

variable (hwf : s.mem.wf)
include hwf

/-- The payload stands at `B[index..]` (R63). -/
theorem absorb_append_read_payload {i : Nat} (hi : i < data.length) :
    (absorb c alg data s).mem.read (c.hdr + s.index + i) = data.getD i 0 := by
  rw [absorb_append_mem c alg data s hshort, read_writeBytes hwf, if_pos (by omega), Nat.add_sub_cancel_left]

theorem absorb_append_read_frame {p : Nat} (hp : p < c.hdr + s.index ∨ c.hdr + s.index + data.length ≤ p) :
    (absorb c alg data s).mem.read p = s.mem.read p := by
  rw [absorb_append_mem c alg data s hshort, read_writeBytes hwf, if_neg (by omega)]

end WithoutCompression

/-- Settles O14: `UPDATE` is `Absorb`; whether `index + len` reaches 64 decides between the append and the compressions. -/
theorem updateAbsorbs : Obligations.UpdateAbsorbs := by
  intro alg data s hwf hphase hlen hceil
  refine ⟨_, exec_update_completes hphase hceil, absorb_words _ _ _ _ hlen hwf, absorb_upperSame _ _ _ _ hlen hwf,
    absorb_index _ _ _ _, absorb_buffered _ _ _ _ hlen hwf, fun hshort => ?_, fun hfull => ?_,
    absorb_outside Config.standard alg data s hlen hwf, absorb_byteCount_of_ceiling _ _ hlen hceil, absorb_phase _ _ _ _,
    absorb_creq _ _ _ _, absorb_pending _ _ _ _, absorb_received _ _ _ _⟩
  · refine ⟨fun i => absorb_append_read_payload Config.standard alg data s hshort hwf,
      fun p => absorb_append_read_frame Config.standard alg data s hshort hwf, absorb_append_words _ _ _ _ hshort, ?_⟩
    rw [absorb_work _ _ _ _ hlen, if_neg (by omega)]
  · refine ⟨absorb_clean Config.standard alg data s hlen hwf (.inl hfull), ?_⟩
    rw [absorb_work _ _ _ _ hlen, if_pos hfull]

/-! ## The counter -/

/-- The high half of `AddCount` takes the carry (R62). -/
theorem addCount_high (hi lo len : Word) :
    (addCount hi lo len).1 = if 2 ^ 32 ≤ lo.toNat + len.toNat then hi + 1 else hi :=
  if_congr (countCarry_iff lo len) rfl rfl

/-- Under the ceiling the high half is at most `2^53 / 2^32` (R62). -/
theorem countHi_le_of_ceiling {s : State} (h : s.byteCount ≤ 2 ^ 53) : s.countHi.toNat ≤ 0x00200000 := by
  rw [State.byteCount, byteCountOf] at h
  omega

/-- Settles O15: `AddCount` is 64-bit addition with a carry, and the counter after `UPDATE` is its result. -/
theorem updateCountsBytes : Obligations.UpdateCountsBytes := by
  refine ⟨fun hi lo len hlen => ⟨rfl, addCount_high hi lo len, byteCountOf_addCount hi lo len hlen⟩, by decide, ?_⟩
  intro alg data s hphase hlen hceil
  have hcount := absorb_byteCount_of_ceiling Config.standard alg hlen hceil
  exact ⟨_, exec_update_completes hphase hceil, absorb_count_eq_addCount _ _ _ _, hcount,
    countHi_le_of_ceiling (hcount.trans_le hceil)⟩

/-! ## Bytes and chunks -/

theorem absorb_nil (c : Config) (alg : Alg) (s : State) : absorb c alg [] s = s :=
  absorb_eq_foldl c alg [] s (by simp)

/-- Settles O16: `Absorb` of no bytes is no single-byte absorption at all. -/
theorem emptyUpdateChangesNothing : Obligations.EmptyUpdateChangesNothing := by
  intro alg s hphase hceil
  rw [exec_update_completes hphase (by rwa [List.length_nil, Nat.add_zero]), absorb_nil]

/-- Settles O18: `UPDATE` is `Absorb`, which is the fold of the single-byte absorption. -/
theorem updateIsByteSerial : Obligations.UpdateIsByteSerial := by
  intro alg data s hphase hlen hceil
  rw [exec_update_completes hphase hceil, absorb_eq_foldl _ _ _ _ hlen]

/-- Settles O17: the first chunk leaves the contract open for the second, and two chunks absorb as one. -/
theorem chunkingInvariance : Obligations.ChunkingInvariance := by
  intro alg d e s hphase hlen hceil
  have hd : s.byteCount + d.length ≤ 2 ^ 53 := by omega
  have hde : s.byteCount + (d ++ e).length ≤ 2 ^ 53 := by rwa [List.length_append]
  have hphase' : (absorb Config.standard alg d s).phase = .active alg := by rw [absorb_phase, hphase]
  have he : (absorb Config.standard alg d s).byteCount + e.length ≤ 2 ^ 53 := by
    rw [absorb_byteCount_of_ceiling _ _ (by omega) hd]
    omega
  refine ⟨_, _, exec_update_completes hphase hd, exec_update_completes hphase' he, ?_⟩
  rw [exec_update_completes hphase hde, absorb_absorb Config.standard alg d e s hlen]

/-! ## The contract -/

/-- What the contract does not allow is refused: no computation, another algorithm's, or past the ceiling (R192, R193). -/
theorem exec_refused_of_contractNext_none {i : Instr} {s : State} (hhost : ∀ alg, i ≠ .compress alg)
    (h : contractNext s.phase s.byteCount i = none) :
    exec i s = .refused .noComputation ∨ exec i s = .refused .algorithmMismatch ∨ exec i s = .refused .byteCeiling := by
  rcases instr_cases i with ⟨alg, rfl⟩ | ⟨alg, d, rfl⟩ | ⟨alg, rfl⟩ | ⟨alg, rfl⟩
  · rw [contractNext_init] at h
    cases h
  · rw [contractNext_update, ite_eq_right_iff] at h
    rw [exec_update]
    rcases update_cases Config.standard alg d s with ⟨-, e⟩ | ⟨-, e⟩ | ⟨-, -, e⟩ | ⟨hphase, hceil, -⟩
    · exact .inl e
    · exact .inr (.inl e)
    · exact .inr (.inr e)
    · cases h ⟨hphase, hceil⟩
  · rw [contractNext_final, ite_eq_right_iff] at h
    rw [exec_final]
    rcases finish_cases Config.standard alg s with ⟨-, e⟩ | ⟨-, e⟩ | ⟨hphase, -⟩
    · exact .inl e
    · exact .inr (.inl e)
    · cases h hphase
  · exact absurd rfl (hhost alg)

/-- A completed host command leaves the phase the contract says, whatever the length of its payload. -/
theorem contractNext_phase_of_exec_next {i : Instr} {s t : State} {q : Phase × Nat}
    (hnext : contractNext s.phase s.byteCount i = some q) (h : exec i s = .next t) : t.phase = q.1 := by
  rcases exec_next_cases h with ⟨alg, rfl, rfl⟩ | ⟨alg, d, rfl, hphase, hceil, rfl⟩ | ⟨alg, rfl, hphase, rfl⟩ |
    ⟨alg, rfl, rfl⟩
  · rw [contractNext_init] at hnext
    cases hnext
    exact beginWith_phase _ _ _
  · rw [contractNext_update, if_pos ⟨hphase, hceil⟩] at hnext
    cases hnext
    exact absorb_phase _ _ _ _
  · rw [contractNext_final, if_pos hphase] at hnext
    cases hnext
    exact finalize_phase _ _ _
  · cases alg <;> cases hnext

/-- Settles O41: what the contract allows completes with its phase, and what it does not allow is refused. -/
theorem contractDecidesCompletion : Obligations.ContractDecidesCompletion := by
  intro i s hhost
  cases hnext : contractNext s.phase s.byteCount i with
  | none => exact .inr ⟨rfl, exec_refused_of_contractNext_none hhost hnext⟩
  | some q =>
    obtain ⟨t, ht⟩ := exec_next_of_contractNext hnext
    exact .inl ⟨t, ht, q.2, by rw [contractNext_phase_of_exec_next hnext ht]⟩

end Sys2Proof.Machine
end

section
/-! PROOFS. The statements about `FINAL` (41_final.md): the digest it leaves (R80 to R94), the padding of R92, and its stages
one by one: marker and zero fill (R81), bytes to bits (R83), length field (R84), hex expansion and scrub (R86, R87). -/

namespace Sys2Proof.Machine

open Sys2Proof.Reference
open Sys2Proof.Safety

/-! ## FINAL -/

/-- Inside the contract `FINAL` is `Finalize` (R80, R88 to R91). -/
theorem exec_final_completes {alg : Alg} {s : State} (hphase : s.phase = .active alg) :
    exec (.final alg) s = .next (finalize Config.standard alg s) :=
  (exec_final alg s).trans (finish_completes hphase)

/-- Settles O19: `FINAL` is `Finalize`, and the padded last blocks continue the fold over the buffered bytes. -/
theorem finalWritesDigest : Obligations.FinalWritesDigest := by
  intro alg s hwf hphase
  exact ⟨_, exec_final_completes hphase, finalize_read Config.standard alg s standard_standardOrder hwf,
    finalize_outside Config.standard alg s hwf, finalize_words _ _ _, finalize_countLo _ _ _, finalize_countHi _ _ _,
    finalize_phase _ _ _, finalize_work _ _ _, finalize_creq _ _ _, finalize_pending _ _ _, finalize_received _ _ _⟩

/-! ## The padding -/

/-- The zeros of R92 fill the last block. -/
theorem padZeros_fills (n : Nat) : (n + 1 + padZeros n + 8) % 64 = 0 := by
  rw [padZeros]
  omega

/-- No fewer zeros fill the last block (R92). -/
theorem padZeros_le_of_fills {n j : Nat} (h : (n + 1 + j + 8) % 64 = 0) : padZeros n ≤ j := by
  rw [padZeros]
  omega

theorem padding_length (alg : Alg) (n : Nat) : (padding alg n).length = padZeros n + 9 := by
  rw [padding, List.length_append, List.length_cons, List.length_replicate, lengthField_length]

/-- Marker and length fit behind at most 55 bytes of the last block; behind more they need another block (R82, R92). -/
theorem paddedBlocks_eq (n : Nat) : (n + (padZeros n + 9)) / 64 = n / 64 + (if n % 64 ≤ 55 then 1 else 2) := by
  rw [padZeros]
  split <;> omega

/-- Settles O20: `padZeros` is a count that fills the last block, and no smaller count does. -/
theorem paddingFillsLastBlock : Obligations.PaddingFillsLastBlock := by
  refine ⟨fun n k => ⟨fun hk => ⟨padZeros n, hk, padZeros_fills n⟩, ?_⟩, fun alg n => ⟨padding_length alg n, ?_, ?_⟩⟩
  · rintro ⟨j, hjk, hj⟩
    exact (padZeros_le_of_fills hj).trans hjk
  · have hfills := padZeros_fills n
    rw [padding_length]
    omega
  · rw [padding_length, paddedBlocks_eq]

/-! ## Stage 1: marker and zero fill -/

/-- Every byte after stage 1 (R81). -/
theorem padMarker_read (c : Config) {s : State} (hwf : s.mem.wf) (p : Nat) : (padMarker c s).mem.read p =
    if p = c.hdr + s.index then 0x80#8
    else if c.hdr + s.index < p ∧ p < c.hdr + 64 then 0#8
    else s.mem.read p := by
  have hindex := index_lt s
  rw [padMarker, writeBlock_mem, writeBytes_cons, read_writeBytes (write_wf hwf _ _), read_write hwf,
    List.length_replicate]
  by_cases hmark : p = c.hdr + s.index
  · rw [if_neg (by omega), if_pos hmark, if_pos hmark]
  rw [if_neg hmark, if_neg hmark]
  by_cases hzero : c.hdr + s.index < p ∧ p < c.hdr + 64
  · rw [if_pos (by omega), if_pos hzero, List.getD_replicate _ (by omega)]
  · rw [if_neg (by omega), if_neg hzero]

/-- Settles O21: stage 1 is one run of bytes from `B[index]` to the end of the block region. -/
theorem markerAndZeroFill : Obligations.MarkerAndZeroFill := by
  intro s hwf
  have hindex := index_lt s
  have hread := padMarker_read Config.standard hwf
  rw [standard_hdr] at hread
  refine ⟨?_, fun i hlo hhi => ?_, fun p hp => ?_, rfl⟩
  · rw [hread, if_pos rfl]
  · rw [hread, if_neg (by omega), if_pos (by omega)]
  · rw [hread, if_neg (by omega), if_neg (by omega)]

/-! ## Stage 3: bytes to bits -/

/-- The counter after stage 3 is the bit count modulo 2^64 (R83). -/
theorem countToBits_byteCount (s : State) : (countToBits s).byteCount = 8 * s.byteCount % 2 ^ 64 :=
  byteCountOf_bitCount s.countHi s.countLo

/-- Under the ceiling the bit count fits the counter (R83, R196). -/
theorem countToBits_byteCount_of_ceiling {s : State} (hceil : s.byteCount ≤ 2 ^ 53) :
    (countToBits s).byteCount = 8 * s.byteCount := by
  rw [countToBits_byteCount, Nat.mod_eq_of_lt (by omega)]

/-- Settles O22: the pair of shifted halves is one multiplication by 8. -/
theorem bytesBecomeBits : Obligations.BytesBecomeBits := by
  refine ⟨fun s => ⟨rfl, countToBits_byteCount s, fun hceil => ?_⟩, by decide, by decide, by decide⟩
  rw [countToBits_byteCount_of_ceiling hceil]
  exact ⟨rfl, by omega⟩

/-! ## Stage 4: the length field -/

/-- The two words of the length field, byte by byte, are the counter as one number (R84). -/
theorem bytesOf_lengthWords (alg : Alg) (s : State) :
    bytesOf (wordOrder alg) (lengthWords (Config.standard.lenOrder alg) s).1 ++
      bytesOf (wordOrder alg) (lengthWords (Config.standard.lenOrder alg) s).2 = lengthField alg s.byteCount := by
  have hlo : s.countLo.toNat = s.byteCount % 2 ^ 32 := by
    rw [State.byteCount, byteCountOf]
    omega
  have hhi : s.countHi.toNat = s.byteCount / 2 ^ 32 % 2 ^ 32 := by
    rw [State.byteCount, byteCountOf]
    omega
  have hle : bytesOf .le s.countLo ++ bytesOf .le s.countHi = littleEndian 8 s.byteCount := by
    rw [bytesOf_le _ _ hlo, bytesOf_le _ _ hhi, littleEndian_eight]
  have hbe : bytesOf .be s.countHi ++ bytesOf .be s.countLo = bigEndian 8 s.byteCount := by
    rw [bytesOf_be, bytesOf_be, ← List.reverse_append, hle, bigEndian]
  cases alg
  case md5 => exact hle
  case sha1 => exact hbe
  case sha256 => exact hbe
  case rmd160 => exact hle

/-- Stage 4 is one run of eight bytes at `B[56]` (R84). -/
theorem storeLength_mem (c : Config) (alg : Alg) (s : State) (ho : c.standardOrder) :
    (storeLength c alg s).mem = s.mem.writeBytes (c.hdr + 56) (lengthField alg s.byteCount) := by
  rw [← bytesOf_lengthWords, writeBytes_append, bytesOf_length, ← ho alg]
  rfl

/-- Every byte after stage 4 (R84). -/
theorem storeLength_read (c : Config) (alg : Alg) {s : State} (ho : c.standardOrder) (hwf : s.mem.wf) (p : Nat) :
    (storeLength c alg s).mem.read p =
      if c.hdr + 56 ≤ p ∧ p < c.hdr + 64 then (lengthField alg s.byteCount).getD (p - (c.hdr + 56)) 0
      else s.mem.read p := by
  rw [storeLength_mem c alg s ho, read_writeBytes hwf, lengthField_length]

/-- Settles O23: the two stores are one run of the bytes of the 64-bit number. -/
theorem lengthFieldBytes : Obligations.LengthFieldBytes := by
  intro alg s hwf
  have hread := storeLength_read Config.standard alg standard_standardOrder hwf
  rw [standard_hdr] at hread
  refine ⟨fun i hi => ?_, fun p hp => ?_, rfl⟩
  · rw [hread, if_pos (by omega), Nat.add_sub_cancel_left]
  · rw [hread, if_neg (by omega)]

/-! ## Stages 6 and 7: hex expansion and scrub -/

theorem hexOfBytes_cons (b : Byte) (raw : List Byte) :
    hexOfBytes (b :: raw) = hexDigit (b.toNat / 16) :: hexDigit (b.toNat % 16) :: hexOfBytes raw := by
  rw [hexOfBytes, List.flatMap_cons, hexOfByte_eq, hexOfBytes]
  rfl

/-- Byte `i` of the raw bytes stands at characters `2 i` and `2 i + 1`, the high nibble first (R86). -/
theorem hexOfBytes_getD {raw : List Byte} {i : Nat} (hi : i < raw.length) :
    (hexOfBytes raw).getD (2 * i) 0 = hexDigit ((raw.getD i 0).toNat / 16) ∧
    (hexOfBytes raw).getD (2 * i + 1) 0 = hexDigit ((raw.getD i 0).toNat % 16) := by
  induction raw generalizing i with
  | nil => cases hi
  | cons b raw ih =>
    rw [hexOfBytes_cons]
    cases i with
    | zero => exact ⟨rfl, rfl⟩
    | succ i => exact ih (Nat.lt_of_succ_lt_succ hi)

/-- Two lowercase hex characters a raw byte after stages 5 to 7 (R86). -/
theorem emitDigest_isHex (c : Config) (alg : Alg) {s : State} (hwf : s.mem.wf) {p : Nat} (hp : p < 2 * digestSize alg) :
    isHexChar ((emitDigest c alg s).mem.read p) := by
  have hsize := digestSize_le alg
  rw [emitDigest_read c alg s hwf p (by rw [Config.bufsz]; omega),
    List.getD_eq_getElem _ _ (by rwa [digestText_length])]
  exact digestText_isHex alg _ _ (List.getElem_mem _)

/-- The rest of the buffer is zero after stages 5 to 7 (R86). -/
theorem emitDigest_read_zero (c : Config) (alg : Alg) {s : State} (hwf : s.mem.wf) {p : Nat}
    (hlo : 2 * digestSize alg ≤ p) (hhi : p < c.bufsz) : (emitDigest c alg s).mem.read p = 0#8 := by
  rw [emitDigest_read c alg s hwf p hhi, List.getD_eq_default _ _ (by rwa [digestText_length])]
  rfl

/-- Settles O24: the digest text is the hex expansion of the raw digest, and only the scrub touches another field. -/
theorem hexExpansion : Obligations.HexExpansion := by
  intro alg s hwf
  have hsize := digestSize_le alg
  have hread (p : Nat) (hp : p < 68) :
      (emitDigest Config.standard alg s).mem.read p = (hexOfBytes (rawDigest alg s.words)).getD p 0 := by
    rw [emitDigest_read Config.standard alg s hwf p hp, hexOfBytes_rawDigest]
  refine ⟨fun i hi => ?_, fun p => emitDigest_isHex Config.standard alg hwf,
    fun p => emitDigest_read_zero Config.standard alg hwf, rawDigest_length alg s.words, rfl⟩
  rw [hread _ (by omega), hread _ (by omega)]
  exact hexOfBytes_getD (by rwa [rawDigest_length])

end Sys2Proof.Machine
end

section
/-! PROOFS. The statements about MD5's compression (42_md5_compress.md): the circular register file (R106) behind the whole
instruction (R100, R101, R107), the tables (R103 to R105), and the round functions bit by bit (R102, R123, R162). -/

namespace Sys2Proof.Machine

open Sys2Proof.Reference
open Sys2Proof.Safety

/-! ## Circular register files -/

theorem putReg_same (reg : Nat → Word) (k : Nat) (v : Word) : putReg reg k v k = v := if_pos rfl

theorem putReg_ne (reg : Nat → Word) {j k : Nat} (v : Word) (h : j ≠ k) : putReg reg k v j = reg j := if_neg h

/-- The register that plays role `k` at step `s` in a file of `n` registers: the window turns back by one place a step
(R106, R125, R147, R166). -/
def windowPlace (n s k : Nat) : Nat := ((n - s % n) % n + k) % n

theorem windowPlace_role_zero (n s : Nat) : windowPlace n s 0 = (n - s % n) % n := Nat.mod_mod _ n

/-- The place of role `k` at step `s` is `k - s` modulo `n`. -/
theorem windowPlace_add_modEq {n : Nat} (hn : 0 < n) (s k : Nat) : windowPlace n s k + s ≡ k [MOD n] := by
  have hs : s % n < n := Nat.mod_lt s hn
  calc windowPlace n s k + s
      ≡ (n - s % n) + k + s % n [MOD n] :=
        ((Nat.mod_modEq _ n).trans ((Nat.mod_modEq _ n).add_right k)).add (Nat.mod_modEq s n).symm
    _ = k + n := by omega
    _ ≡ k [MOD n] := Nat.add_modEq_right

theorem windowPlace_eq_iff {n : Nat} (hn : 0 < n) {s t j k : Nat} :
    windowPlace n s j = windowPlace n t k ↔ j + t ≡ k + s [MOD n] := by
  have hj := (windowPlace_add_modEq hn s j).add_right t
  have hk := (windowPlace_add_modEq hn t k).add_right s
  constructor
  · intro h
    rw [h, Nat.add_right_comm] at hj
    exact hj.symm.trans hk
  · intro h
    have hst := hj.trans (h.trans hk.symm)
    rw [Nat.add_right_comm (windowPlace n t k)] at hst
    exact (hst.add_right_cancel' t |>.add_right_cancel' s).eq_of_lt_of_lt (Nat.mod_lt _ hn) (Nat.mod_lt _ hn)

/-- What plays role `k` at a step plays role `k + 1` at the next. -/
theorem windowPlace_turn {n : Nat} (hn : 0 < n) (s k : Nat) : windowPlace n (s + 1) (k + 1) = windowPlace n s k :=
  (windowPlace_eq_iff hn).2 (by rw [Nat.add_right_comm, Nat.add_assoc])

/-- What plays the last role at a step plays role 0 at the next. -/
theorem windowPlace_turn_last (n s : Nat) : windowPlace (n + 1) (s + 1) 0 = windowPlace (n + 1) s n :=
  (windowPlace_eq_iff n.succ_pos).2 (by
    rw [Nat.zero_add, show n + (s + 1) = s + (n + 1) by omega]
    exact Nat.add_modEq_right.symm)

/-- Different roles stand at different places. -/
theorem windowPlace_ne {n : Nat} {s j k : Nat} (hj : j < n) (hk : k < n) (h : j ≠ k) :
    windowPlace n s j ≠ windowPlace n s k := fun heq =>
  h ((((windowPlace_eq_iff (by omega)).1 heq).add_right_cancel' s).eq_of_lt_of_lt hj hk)

/-- After whole turns the window is back where it began. -/
theorem windowPlace_of_dvd {n s k : Nat} (hs : n ∣ s) (hk : k < n) : windowPlace n s k = k := by
  rw [windowPlace, Nat.mod_eq_zero_of_dvd hs, Nat.sub_zero, Nat.mod_self, Nat.zero_add, Nat.mod_eq_of_lt hk]

/-- A relation of working registers and register file that every step keeps holds after `n` steps of both. -/
theorem ringSteps_keeps {α : Type} {step : α → Nat → α} {ring : (Nat → Word) → Nat → (Nat → Word)}
    {rel : α → (Nat → Word) → Nat → Prop} {r : α} {reg : Nat → Word} (hstart : rel r reg 0) (n : Nat)
    (hstep : ∀ r reg s, s < n → rel r reg s → rel (step r s) (ring reg s) (s + 1)) :
    rel ((List.range n).foldl step r) (ringSteps ring n reg) n := by
  induction n with
  | zero => exact hstart
  | succ n ih =>
    rw [ringSteps, List.range_succ, List.foldl_append, List.foldl_append]
    exact hstep _ _ n n.lt_succ_self (ih fun r reg s hs => hstep r reg s (hs.trans n.lt_succ_self))

/-! ## `MD5.COMPRESS` -/

/-- The accumulators are what the window shows of the register file before step `s`, and the message words are `x` (R106). -/
structure Md5Windowed (x : Sixteen) (r : Md5Work) (reg : Nat → Word) (s : Nat) : Prop where
  message : r.x = x
  a : r.a = reg (windowPlace 4 s 0)
  b : r.b = reg (windowPlace 4 s 1)
  c : r.c = reg (windowPlace 4 s 2)
  d : r.d = reg (windowPlace 4 s 3)

theorem md5Windowed_load (w : Words) (x : Sixteen) : Md5Windowed x (md5Load w x) (regFile w) 0 := ⟨rfl, rfl, rfl, rfl, rfl⟩

/-- A step of the register file writes the new value of R100's step over accumulator `a`, and nothing else. -/
theorem md5Ring_eq_putReg {x : Sixteen} {r : Md5Work} {reg : Nat → Word} {s : Nat} (h : Md5Windowed x r reg s) :
    md5Ring x reg s = putReg reg (windowPlace 4 s 0) (md5Step r s).n := by
  obtain ⟨rfl, ha, hb, hc, hd⟩ := h
  simp only [md5Step, ha, hb, hc, hd, windowPlace_role_zero]
  rfl

/-- The renaming of R100 is the turn of the window (R106). -/
theorem md5Step_keeps_windowed {x : Sixteen} {r : Md5Work} {reg : Nat → Word} {s : Nat} (h : Md5Windowed x r reg s) :
    Md5Windowed x (md5Step r s) (md5Ring x reg s) (s + 1) := by
  have hturn := windowPlace_turn (n := 4) (by omega) s
  have hkeep {k : Nat} (h0 : k ≠ 0) (h4 : k < 4) :
      md5Ring x reg s (windowPlace 4 s k) = reg (windowPlace 4 s k) := by
    rw [md5Ring_eq_putReg h, putReg_ne _ _ (windowPlace_ne h4 (by omega) h0)]
  constructor
  case message => exact h.message
  case a => rw [windowPlace_turn_last, hkeep (by omega) (by omega)]; exact h.d
  case b => rw [hturn, md5Ring_eq_putReg h, putReg_same]; rfl
  case c => rw [hturn, hkeep (by omega) (by omega)]; exact h.b
  case d => rw [hturn, hkeep (by omega) (by omega)]; exact h.c

theorem md5Steps_windowed (w : Words) (x : Sixteen) (n : Nat) :
    Md5Windowed x (md5Steps n (md5Load w x)) (ringSteps (md5Ring x) n (regFile w)) n :=
  ringSteps_keeps (md5Windowed_load w x) n fun _ _ _ _ h => md5Step_keeps_windowed h

/-- After all 64 steps the window is back at the start, so `reg[i]` is accumulator `i` (R106). -/
theorem md5Block_eq_ringSteps (w : Words) (x : Sixteen) :
    md5Block w x =
      let reg := ringSteps (md5Ring x) 64 (regFile w)
      { w with w0 := w.w0 + reg 0, w1 := w.w1 + reg 1, w2 := w.w2 + reg 2, w3 := w.w3 + reg 3 } := by
  have hback {k : Nat} (hk : k < 4) : windowPlace 4 64 k = k := windowPlace_of_dvd (by decide) hk
  obtain ⟨-, ha, hb, hc, hd⟩ := md5Steps_windowed w x 64
  rw [md5Block, md5Add, ha, hb, hc, hd, hback (k := 0) (by decide), hback (k := 1) (by decide),
    hback (k := 2) (by decide), hback (k := 3) (by decide)]

/-- The core writes the words and its own working registers, and leaves every other field (R100, R107). -/
theorem md5Core_eq (c : Config) (s : State) : md5Core c s =
    { s with words := md5Block s.words (loadBlock c .le s), work := { s.work with md5 := Md5Work.zero } } := by
  rw [md5Core, State.setWork, State.setWords]

/-- Settles O25: the core folds R100's steps, and the register file read through the window simulates each of them. -/
theorem md5CompressIsRotatingWindow : Obligations.Md5CompressIsRotatingWindow := by
  intro s
  have hexec : exec .md5Compress s = .next (md5Core Config.standard s) := exec_compress .md5 s
  rw [hexec, md5Core_eq, md5Block_eq_ringSteps, loadBlock, standard_hdr]

/-! ## MD5's tables -/

/-- The formulas of R103 give the sequences printed beside them, a row of sixteen a round. -/
theorem md5K_rows : (List.range 64).map md5K =
    [0, 1, 2, 3, 4, 5, 6, 7, 8, 9, 10, 11, 12, 13, 14, 15] ++ [1, 6, 11, 0, 5, 10, 15, 4, 9, 14, 3, 8, 13, 2, 7, 12] ++
    [5, 8, 11, 14, 1, 4, 7, 10, 13, 0, 3, 6, 9, 12, 15, 2] ++ [0, 7, 14, 5, 12, 3, 10, 1, 8, 15, 6, 13, 4, 11, 2, 9] := by
  decide

/-- `T` lists the 64 constants in the order of the steps (R105). -/
theorem map_md5T_range : (List.range 64).map md5T = md5Table := by decide

/-- Settles O33: 64 indices, 64 amounts and 64 constants, evaluated. -/
theorem md5IndexAndRotation : Obligations.Md5IndexAndRotation :=
  ⟨md5K_rows, by decide, map_md5T_range⟩

/-! ## The round functions bit by bit -/

theorem chooseF_getLsbD (x y z : Word) {i : Nat} (hi : i < 32) :
    (chooseF x y z).getLsbD i = if x.getLsbD i then y.getLsbD i else z.getLsbD i := by
  simp only [chooseF, BitVec.getLsbD_or, BitVec.getLsbD_and, BitVec.getLsbD_not, hi]
  cases x.getLsbD i <;> simp

theorem parityF_getLsbD (x y z : Word) (i : Nat) :
    (parityF x y z).getLsbD i = ((x.getLsbD i != y.getLsbD i) != z.getLsbD i) := by
  rw [parityF, BitVec.getLsbD_xor, BitVec.getLsbD_xor]

theorem majorityF_getLsbD (x y z : Word) (i : Nat) :
    (majorityF x y z).getLsbD i = if x.getLsbD i = y.getLsbD i then x.getLsbD i else z.getLsbD i := by
  simp only [majorityF, BitVec.getLsbD_or, BitVec.getLsbD_and]
  cases x.getLsbD i <;> cases y.getLsbD i <;> simp

/-- MD5's second function is choose with the last word as the selector (R102). -/
theorem md5F_one_eq_chooseF (x y z : Word) : md5F 1 x y z = chooseF z x y := by
  rw [md5F, chooseF, BitVec.and_comm x z, BitVec.and_comm y]

theorem or_not_getLsbD (x y : Word) {i : Nat} (hi : i < 32) :
    (x ||| ~~~y).getLsbD i = (x.getLsbD i || !y.getLsbD i) := by
  rw [BitVec.getLsbD_or, BitVec.getLsbD_not, decide_eq_true hi, Bool.true_and]

theorem xor_or_not_getLsbD (x y z : Word) {i : Nat} (hi : i < 32) :
    (x ^^^ (y ||| ~~~z)).getLsbD i = (x.getLsbD i != (y.getLsbD i || !z.getLsbD i)) := by
  rw [BitVec.getLsbD_xor, or_not_getLsbD y z hi]

theorem or_not_xor_getLsbD (x y z : Word) {i : Nat} (hi : i < 32) :
    ((x ||| ~~~y) ^^^ z).getLsbD i = ((x.getLsbD i || !y.getLsbD i) != z.getLsbD i) := by
  rw [BitVec.getLsbD_xor, or_not_getLsbD x y hi]

/-- Settles O56: choose, parity, majority and the functions of an `or` with a complement, each bit by bit. -/
theorem roundFunctionBits : Obligations.RoundFunctionBits := by
  intro x y z i hi
  have hchoose := chooseF_getLsbD x y z hi
  have hlast : (md5F 1 x y z).getLsbD i = if z.getLsbD i then x.getLsbD i else y.getLsbD i := by
    rw [md5F_one_eq_chooseF, chooseF_getLsbD z x y hi]
  have hparity := parityF_getLsbD x y z i
  have hmajority := majorityF_getLsbD x y z i
  exact ⟨hchoose, hlast, hparity, xor_or_not_getLsbD y x z hi,
    hchoose, hparity, hmajority, hparity,
    hparity, hchoose, or_not_xor_getLsbD x y z hi, hlast, xor_or_not_getLsbD x y z hi⟩

end Sys2Proof.Machine
end

section
/-! PROOFS. The statements about SHA-1's compression (43_sha1_compress.md): the rolling window against the unrolled schedule
(R122), the circular register file (R125) behind the whole instruction (R120, R121, R126), and the round constants
(R124, R163). -/

namespace Sys2Proof.Machine

open Sys2Proof.Reference

/-! ## Rolling windows -/

theorem Sixteen.at_put_same (w : Sixteen) (s : Nat) (v : Word) : (w.put s v).at s = v := Vector.getElem_set_self _

theorem Sixteen.at_put_ne (w : Sixteen) {i s : Nat} (v : Word) (h : i % 16 ≠ s % 16) : (w.put s v).at i = w.at i :=
  Vector.getElem_set_ne _ _ h.symm

/-- `w` holds the last sixteen words of the schedule `u` before word `s`, or its first sixteen while `s` is below 16
(R122, R142). -/
def HoldsSchedule (u : Nat → Word) (w : Sixteen) (s : Nat) : Prop :=
  ∀ i, i < max s 16 → max s 16 ≤ i + 16 → w.at i = u i

section Rolling
variable {u : Nat → Word} {w : Sixteen} {s : Nat}

theorem holdsSchedule_start (h : ∀ i, i < 16 → u i = w.at i) : HoldsSchedule u w 0 := fun i hi _ => (h i hi).symm

/-- Below word 16 the window is not written. -/
theorem HoldsSchedule.early (h : HoldsSchedule u w s) (hs : s < 16) : HoldsSchedule u w (s + 1) :=
  fun i hi hi' => h i (by omega) (by omega)

/-- From word 16 on, word `s` replaces word `s - 16`, the only other one at its place. -/
theorem HoldsSchedule.roll (h : HoldsSchedule u w s) (hs : 16 ≤ s) : HoldsSchedule u (w.put s (u s)) (s + 1) := by
  intro i hi hi'
  obtain rfl | hne := eq_or_ne i s
  · exact Sixteen.at_put_same w i (u i)
  · rw [Sixteen.at_put_ne w _ (by omega)]
    exact h i (by omega) (by omega)

/-- Before word `s` is written, the `k`-th word back is in the window. -/
theorem HoldsSchedule.back (h : HoldsSchedule u w s) (hs : 16 ≤ s) {k : Nat} (h0 : 0 < k) (hk : k ≤ 16) :
    w.at (s - k) = u (s - k) := h (s - k) (by omega) (by omega)

/-- After step `s` word `s` is in the window. -/
theorem HoldsSchedule.last (h : HoldsSchedule u w (s + 1)) : w.at s = u s := h s (by omega) (by omega)

end Rolling

/-! ## SHA-1's schedule -/

/-- Each further word moves the earlier ones one place down the list. -/
theorem sha1Words_getD_add (x : Sixteen) (n k m : Nat) :
    (sha1Words x (n + m)).getD (k + m) 0 = (sha1Words x n).getD k 0 := by
  induction m with
  | zero => rfl
  | succ m ih => rw [← ih]; exact List.getD_cons_succ

/-- Place `k` of the schedule cut after `n` further words holds the word whose number counts `k` back from the newest. -/
theorem sha1Words_getD_eq_sha1Word (x : Sixteen) {n k s : Nat} (hn : n ≤ 64) (h : s + k = n + 15) :
    (sha1Words x n).getD k 0 = sha1Word x s := by
  obtain ⟨m, hm⟩ := Nat.exists_eq_add_of_le hn
  rw [sha1Word, hm, show 79 - s = k + m by omega, sha1Words_getD_add]

theorem sha1Word_message (x : Sixteen) {s : Nat} (hs : s < 16) : sha1Word x s = x.at s := by
  have hk : 15 - s < x.toList.reverse.length := by rw [List.length_reverse, Vector.length_toList]; omega
  have hcut : (sha1Words x 0).getD (15 - s) 0 = sha1Word x s := sha1Words_getD_eq_sha1Word x (by omega) (by omega)
  rw [← hcut, sha1Words, List.getD_eq_getElem _ _ hk, List.getElem_reverse]
  simp only [Vector.getElem_toList, Vector.length_toList, Sixteen.at]
  congr 1
  omega

/-- The unrolled recurrence of R122. -/
theorem sha1Word_recurrence (x : Sixteen) {s : Nat} (h16 : 16 ≤ s) (h80 : s < 80) : sha1Word x s =
    rotl (sha1Word x (s - 3) ^^^ sha1Word x (s - 8) ^^^ sha1Word x (s - 14) ^^^ sha1Word x (s - 16)) 1 := by
  obtain ⟨n, rfl⟩ := Nat.exists_eq_add_of_le' h16
  have hcut {k j : Nat} (h : j + k = n + 15) : sha1Word x j = (sha1Words x n).getD k 0 :=
    (sha1Words_getD_eq_sha1Word x (by omega) h).symm
  rw [← sha1Words_getD_eq_sha1Word x (n := n + 1) (k := 0) (by omega) (by omega), hcut (k := 2) (by omega),
    hcut (k := 7) (by omega), hcut (k := 13) (by omega), hcut (k := 15) (by omega)]
  rfl

/-- A step's window update computes the next word of the unrolled schedule (R122). -/
theorem sha1Window_keeps_schedule {x w : Sixteen} {s : Nat} (h : HoldsSchedule (sha1Word x) w s) (hs : s < 80) :
    HoldsSchedule (sha1Word x) (sha1Window w s) (s + 1) := by
  rw [sha1Window]
  split
  case isTrue h16 =>
    rw [h.back h16 (k := 3) (by omega) (by omega), h.back h16 (k := 8) (by omega) (by omega),
      h.back h16 (k := 14) (by omega) (by omega), h.back h16 (k := 16) (by omega) (by omega),
      ← sha1Word_recurrence x h16 hs]
    exact h.roll h16
  case isFalse h16 => exact h.early (by omega)

/-! ## `SHA1.COMPRESS` -/

/-- Before step `s` the accumulators are what the window shows of the register file (R125), and `W` holds the schedule
(R122). -/
structure Sha1Windowed (x : Sixteen) (r : Sha1Work) (reg : Nat → Word) (s : Nat) : Prop where
  schedule : HoldsSchedule (sha1Word x) r.w s
  a : r.a = reg (windowPlace 5 s 0)
  b : r.b = reg (windowPlace 5 s 1)
  c : r.c = reg (windowPlace 5 s 2)
  d : r.d = reg (windowPlace 5 s 3)
  e : r.e = reg (windowPlace 5 s 4)

theorem sha1Windowed_load (w : Words) (x : Sixteen) : Sha1Windowed x (sha1Load w x) (regFile w) 0 :=
  ⟨holdsSchedule_start fun _ => sha1Word_message x, rfl, rfl, rfl, rfl, rfl⟩

section Step
variable {x : Sixteen} {r : Sha1Work} {reg : Nat → Word} {s : Nat} (h : Sha1Windowed x r reg s) (hs : s < 80)
include h hs

theorem sha1Step_keeps_schedule : HoldsSchedule (sha1Word x) (sha1Step r s).w (s + 1) :=
  sha1Window_keeps_schedule h.schedule hs

/-- A step of the register file writes R120's sum over accumulator `e` and the rotated `b` over `b`, and nothing else. -/
theorem sha1Ring_eq_putReg : sha1Ring x reg s =
    putReg (putReg reg (windowPlace 5 s 4) (sha1Step r s).t) (windowPlace 5 s 1) (rotr r.b 2) := by
  have hword : (sha1Window r.w s).at s = sha1Word x s := (sha1Step_keeps_schedule h hs).last
  simp only [sha1Step, hword, h.a, h.b, h.c, h.d, h.e, windowPlace_role_zero]
  rfl

/-- The data movement of R125 is the turn of the window. -/
theorem sha1Step_keeps_windowed : Sha1Windowed x (sha1Step r s) (sha1Ring x reg s) (s + 1) := by
  have hturn := windowPlace_turn (n := 5) (by omega) s
  have hring := sha1Ring_eq_putReg h hs
  have hkeep {k : Nat} (h1 : k ≠ 1) (h4 : k < 4) : sha1Ring x reg s (windowPlace 5 s k) = reg (windowPlace 5 s k) := by
    rw [hring, putReg_ne _ _ (windowPlace_ne (by omega) (by omega) h1),
      putReg_ne _ _ (windowPlace_ne (by omega) (by omega) h4.ne)]
  constructor
  case schedule => exact sha1Step_keeps_schedule h hs
  case a =>
    rw [windowPlace_turn_last, hring, putReg_ne _ _ (windowPlace_ne (by omega) (by omega) (by omega)), putReg_same]
    rfl
  case b => rw [hturn, hkeep (by omega) (by omega)]; exact h.a
  case c => rw [hturn, hring, putReg_same]; rfl
  case d => rw [hturn, hkeep (by omega) (by omega)]; exact h.c
  case e => rw [hturn, hkeep (by omega) (by omega)]; exact h.d

end Step

theorem sha1Steps_windowed (w : Words) (x : Sixteen) {n : Nat} (hn : n ≤ 80) :
    Sha1Windowed x (sha1Steps n (sha1Load w x)) (ringSteps (sha1Ring x) n (regFile w)) n :=
  ringSteps_keeps (sha1Windowed_load w x) n fun _ _ _ hs h => sha1Step_keeps_windowed h (by omega)

/-- After all 80 steps the window is back at the start, so `reg[i]` is accumulator `i` (R125). -/
theorem sha1Block_eq_ringSteps (w : Words) (x : Sixteen) :
    sha1Block w x =
      let reg := ringSteps (sha1Ring x) 80 (regFile w)
      { w with w0 := w.w0 + reg 0, w1 := w.w1 + reg 1, w2 := w.w2 + reg 2, w3 := w.w3 + reg 3, w4 := w.w4 + reg 4 } := by
  have hback {k : Nat} (hk : k < 5) : windowPlace 5 80 k = k := windowPlace_of_dvd (by decide) hk
  obtain ⟨-, ha, hb, hc, hd, he⟩ := sha1Steps_windowed w x le_rfl
  rw [sha1Block, sha1Add, ha, hb, hc, hd, he, hback (k := 0) (by decide), hback (k := 1) (by decide),
    hback (k := 2) (by decide), hback (k := 3) (by decide), hback (k := 4) (by decide)]

/-- The core writes the words and its own working registers, and leaves every other field (R120, R126). -/
theorem sha1Core_eq (c : Config) (s : State) : sha1Core c s =
    { s with words := sha1Block s.words (loadBlock c .be s), work := { s.work with sha1 := Sha1Work.zero } } := by
  rw [sha1Core, State.setWork, State.setWords]

/-- Settles O26: the core folds R120's steps, and the register file read through the window, over the unrolled schedule,
simulates each of them. -/
theorem sha1CompressIsRotatingWindow : Obligations.Sha1CompressIsRotatingWindow := by
  intro s
  have hexec : exec .sha1Compress s = .next (sha1Core Config.standard s) := exec_compress .sha1 s
  rw [hexec, sha1Core_eq, sha1Block_eq_ringSteps, loadBlock, standard_hdr]

/-! ## The schedule recurrence -/

/-- Step `s` uses word `s` of the unrolled schedule. -/
theorem sha1Steps_w_at (w : Words) (x : Sixteen) {s : Nat} (hs : s < 80) :
    (sha1Steps (s + 1) (sha1Load w x)).w.at s = sha1Word x s := (sha1Steps_windowed w x hs).schedule.last

/-- Settles O29: the words the steps use are those of the unrolled schedule. -/
theorem sha1ScheduleRecurrence : Obligations.Sha1ScheduleRecurrence := by
  intro w x
  refine ⟨_, fun s => rfl, fun s hs => ?_, fun s h16 h80 => ?_⟩
  · rw [sha1Steps_w_at w x (by omega), sha1Word_message x hs]
  · rw [sha1Steps_w_at w x h80, sha1Steps_w_at w x (s := s - 3) (by omega), sha1Steps_w_at w x (s := s - 8) (by omega),
      sha1Steps_w_at w x (s := s - 14) (by omega), sha1Steps_w_at w x (s := s - 16) (by omega)]
    exact sha1Word_recurrence x h16 h80

/-! ## The round constants -/

/-- SHA-1's constants are square roots (R124). -/
theorem sha1K_isSquareRoot : ∀ r, r < 4 →
    (sha1K r).toNat ^ 2 ≤ [2, 3, 5, 10].getD r 0 * 2 ^ 60 ∧
    [2, 3, 5, 10].getD r 0 * 2 ^ 60 < ((sha1K r).toNat + 1) ^ 2 := by decide

/-- The left lane's constants after the first are square roots (R163). -/
theorem rmdKL_isSquareRoot : ∀ j, j < 4 →
    (rmdKL (j + 1)).toNat ^ 2 ≤ [2, 3, 5, 7].getD j 0 * 2 ^ 60 ∧
    [2, 3, 5, 7].getD j 0 * 2 ^ 60 < ((rmdKL (j + 1)).toNat + 1) ^ 2 := by decide

/-- The right lane's constants before the last are cube roots (R163). -/
theorem rmdKR_isCubeRoot : ∀ j, j < 4 →
    (rmdKR j).toNat ^ 3 ≤ [2, 3, 5, 7].getD j 0 * 2 ^ 90 ∧
    [2, 3, 5, 7].getD j 0 * 2 ^ 90 < ((rmdKR j).toNat + 1) ^ 3 := by decide

/-- Settles O34: twelve roots, each between its power and the next number's, and the two constants that are zero. -/
theorem roundConstantsAreRoots : Obligations.RoundConstantsAreRoots := by
  refine ⟨sha1K_isSquareRoot, fun j hj => ?_, rfl, rfl⟩
  obtain ⟨hleft, hleft'⟩ := rmdKL_isSquareRoot j hj
  exact ⟨hleft, hleft', rmdKR_isCubeRoot j hj⟩

end Sys2Proof.Machine
end

section
/-! PROOFS. The statements about SHA-256's compression (44_sha256_compress.md): the rolling window against the unrolled
schedule (R142), the circular register file (R147) behind the whole instruction (R140, R141, R146), and the step constants
(R145). -/

namespace Sys2Proof.Machine

open Sys2Proof.Reference

/-! ## SHA-256's schedule -/

/-- Each further word moves the earlier ones one place down the list. -/
theorem sha256Words_getD_add (x : Sixteen) (n k m : Nat) :
    (sha256Words x (n + m)).getD (k + m) 0 = (sha256Words x n).getD k 0 := by
  induction m with
  | zero => rfl
  | succ m ih => rw [← ih]; exact List.getD_cons_succ

/-- Place `k` of the schedule cut after `n` further words holds the word whose number counts `k` back from the newest. -/
theorem sha256Words_getD_eq_sha256Word (x : Sixteen) {n k s : Nat} (hn : n ≤ 48) (h : s + k = n + 15) :
    (sha256Words x n).getD k 0 = sha256Word x s := by
  obtain ⟨m, hm⟩ := Nat.exists_eq_add_of_le hn
  rw [sha256Word, hm, show 63 - s = k + m by omega, sha256Words_getD_add]

/-- Both algorithms' schedules begin with the sixteen message words (R122, R142). -/
theorem sha256Word_message (x : Sixteen) {s : Nat} (hs : s < 16) : sha256Word x s = x.at s := by
  have hcut : (sha256Words x 0).getD (15 - s) 0 = sha256Word x s := sha256Words_getD_eq_sha256Word x (by omega) (by omega)
  have hcut' : (sha1Words x 0).getD (15 - s) 0 = sha1Word x s := sha1Words_getD_eq_sha1Word x (by omega) (by omega)
  rw [← sha1Word_message x hs, ← hcut, ← hcut']
  rfl

/-- The unrolled recurrence of R142. -/
theorem sha256Word_recurrence (x : Sixteen) {s : Nat} (h16 : 16 ≤ s) (h64 : s < 64) : sha256Word x s =
    sha256Word x (s - 16) + ssig0 (sha256Word x (s - 15)) + sha256Word x (s - 7) + ssig1 (sha256Word x (s - 2)) := by
  obtain ⟨n, rfl⟩ := Nat.exists_eq_add_of_le' h16
  have hcut {k j : Nat} (h : j + k = n + 15) : sha256Word x j = (sha256Words x n).getD k 0 :=
    (sha256Words_getD_eq_sha256Word x (by omega) h).symm
  rw [← sha256Words_getD_eq_sha256Word x (n := n + 1) (k := 0) (by omega) (by omega), hcut (k := 15) (by omega),
    hcut (k := 14) (by omega), hcut (k := 6) (by omega), hcut (k := 1) (by omega)]
  rfl

/-- What the window adds to word `s - 16`, in its own order, is the recurrence; word `s - 16` stands at place `s` (R142). -/
theorem sha256Window_keeps_schedule {x w : Sixteen} {s : Nat} (h : HoldsSchedule (sha256Word x) w s) (hs : s < 64) :
    HoldsSchedule (sha256Word x) (sha256Window w s) (s + 1) := by
  rw [sha256Window]
  split
  case isTrue h16 =>
    have hplace : w.at s = w.at (s - 16) := by simp only [Sixteen.at, ← Nat.mod_eq_sub_mod h16]
    have hword : w.at s + ssig1 (w.at (s - 2)) + w.at (s - 7) + ssig0 (w.at (s - 15)) = sha256Word x s := by
      simp (disch := omega) only [hplace, h.back h16, sha256Word_recurrence x h16 hs]
      ac_rfl
    rw [hword]
    exact h.roll h16
  case isFalse h16 => exact h.early (by omega)

/-! ## `SHA256.COMPRESS` -/

/-- Before step `s` the accumulators are what the window shows of the register file (R147), and `W` holds the schedule
(R142). -/
structure Sha256Windowed (x : Sixteen) (r : Sha256Work) (reg : Nat → Word) (s : Nat) : Prop where
  schedule : HoldsSchedule (sha256Word x) r.w s
  a : r.a = reg (windowPlace 8 s 0)
  b : r.b = reg (windowPlace 8 s 1)
  c : r.c = reg (windowPlace 8 s 2)
  d : r.d = reg (windowPlace 8 s 3)
  e : r.e = reg (windowPlace 8 s 4)
  f : r.f = reg (windowPlace 8 s 5)
  g : r.g = reg (windowPlace 8 s 6)
  h : r.h = reg (windowPlace 8 s 7)

theorem sha256Windowed_load (w : Words) (x : Sixteen) : Sha256Windowed x (sha256Load w x) (regFile w) 0 :=
  ⟨holdsSchedule_start fun _ => sha256Word_message x, rfl, rfl, rfl, rfl, rfl, rfl, rfl, rfl⟩

section Step
variable {x : Sixteen} {r : Sha256Work} {reg : Nat → Word} {s : Nat} (h : Sha256Windowed x r reg s) (hs : s < 64)
include h hs

theorem sha256Step_keeps_schedule : HoldsSchedule (sha256Word x) (sha256Step r s).w (s + 1) :=
  sha256Window_keeps_schedule h.schedule hs

/-- A step of the register file adds `t1` to accumulator `d` and writes `t1 + t2` over `h`, and nothing else (R147). -/
theorem sha256Ring_eq_putReg : sha256Ring x reg s =
    putReg (putReg reg (windowPlace 8 s 3) (r.d + (sha256Step r s).t1)) (windowPlace 8 s 7)
      ((sha256Step r s).t1 + (sha256Step r s).t2) := by
  have hword : (sha256Window r.w s).at s = sha256Word x s := (sha256Step_keeps_schedule h hs).last
  have hch (x y z : Word) : sha256Ch x y z = chooseF x y z := (chooseF_eq_xor x y z).symm
  have hmaj (x y z : Word) : sha256Maj x y z = majorityF x y z := (majorityF_eq_xor x y z).symm
  simp only [sha256Step, hword, hch, hmaj, h.a, h.b, h.c, h.d, h.e, h.f, h.g, h.h]
  rfl

/-- The renaming of R140 is the turn of the window (R147). -/
theorem sha256Step_keeps_windowed : Sha256Windowed x (sha256Step r s) (sha256Ring x reg s) (s + 1) := by
  have hturn := windowPlace_turn (n := 8) (by omega) s
  have hring := sha256Ring_eq_putReg h hs
  have hkeep {k : Nat} (h3 : k ≠ 3) (h7 : k < 7) : sha256Ring x reg s (windowPlace 8 s k) = reg (windowPlace 8 s k) := by
    rw [hring, putReg_ne _ _ (windowPlace_ne (by omega) (by omega) h7.ne),
      putReg_ne _ _ (windowPlace_ne (by omega) (by omega) h3)]
  constructor
  case schedule => exact sha256Step_keeps_schedule h hs
  case a => rw [windowPlace_turn_last, hring, putReg_same]; rfl
  case b => rw [hturn, hkeep (by omega) (by omega)]; exact h.a
  case c => rw [hturn, hkeep (by omega) (by omega)]; exact h.b
  case d => rw [hturn, hkeep (by omega) (by omega)]; exact h.c
  case e =>
    rw [hturn, hring, putReg_ne _ _ (windowPlace_ne (by omega) (by omega) (by omega)), putReg_same]
    rfl
  case f => rw [hturn, hkeep (by omega) (by omega)]; exact h.e
  case g => rw [hturn, hkeep (by omega) (by omega)]; exact h.f
  case h => rw [hturn, hkeep (by omega) (by omega)]; exact h.g

end Step

theorem sha256Steps_windowed (w : Words) (x : Sixteen) {n : Nat} (hn : n ≤ 64) :
    Sha256Windowed x (sha256Steps n (sha256Load w x)) (ringSteps (sha256Ring x) n (regFile w)) n :=
  ringSteps_keeps (sha256Windowed_load w x) n fun _ _ _ hs h => sha256Step_keeps_windowed h (by omega)

/-- After all 64 steps the window is back at the start, so `reg[i]` is accumulator `i` (R147). -/
theorem sha256Block_eq_ringSteps (w : Words) (x : Sixteen) :
    sha256Block w x =
      let reg := ringSteps (sha256Ring x) 64 (regFile w)
      ⟨w.w0 + reg 0, w.w1 + reg 1, w.w2 + reg 2, w.w3 + reg 3, w.w4 + reg 4, w.w5 + reg 5, w.w6 + reg 6, w.w7 + reg 7⟩ := by
  obtain ⟨-, ha, hb, hc, hd, he, hf, hg, hh⟩ := sha256Steps_windowed w x le_rfl
  simp (disch := decide) only [sha256Block, sha256Add, ha, hb, hc, hd, he, hf, hg, hh, windowPlace_of_dvd]

/-- The core writes the words and its own working registers, and leaves every other field (R140, R146). -/
theorem sha256Core_eq (c : Config) (s : State) : sha256Core c s =
    { s with words := sha256Block s.words (loadBlock c .be s), work := { s.work with sha256 := Sha256Work.zero } } := by
  rw [sha256Core, State.setWork, State.setWords]

/-- Settles O27: the core folds R140's steps, and the register file read through the window, over the unrolled schedule,
simulates each of them. -/
theorem sha256CompressIsRotatingWindow : Obligations.Sha256CompressIsRotatingWindow := by
  intro s
  have hexec : exec .sha256Compress s = .next (sha256Core Config.standard s) := exec_compress .sha256 s
  rw [hexec, sha256Core_eq, sha256Block_eq_ringSteps, loadBlock, standard_hdr]

/-! ## The schedule recurrence -/

/-- Step `s` uses word `s` of the unrolled schedule. -/
theorem sha256Steps_w_at (w : Words) (x : Sixteen) {s : Nat} (hs : s < 64) :
    (sha256Steps (s + 1) (sha256Load w x)).w.at s = sha256Word x s := (sha256Steps_windowed w x hs).schedule.last

/-- Settles O30: the words the steps use are those of the unrolled schedule. -/
theorem sha256ScheduleRecurrence : Obligations.Sha256ScheduleRecurrence := by
  intro w x
  refine ⟨_, fun s => rfl, fun s hs => ?_, fun s h16 h64 => ?_⟩
  · rw [sha256Steps_w_at w x (by omega), sha256Word_message x hs]
  · simp (disch := omega) only [sha256Steps_w_at w x]
    exact sha256Word_recurrence x h16 h64

/-! ## The step constants -/

/-- Trial division by the numbers from 2 up to `k - 1`. -/
def noDivisorBelow (k n : Nat) : Bool := decide (2 ≤ n) && (List.range k).all fun d => decide (d < 2) || n % d != 0

theorem noDivisorBelow_iff {k n : Nat} : noDivisorBelow k n = true ↔ 2 ≤ n ∧ ∀ d, 2 ≤ d → d < k → ¬ d ∣ n := by
  have hd (d : Nat) : (decide (d < 2) || n % d != 0) = true ↔ (2 ≤ d → ¬ d ∣ n) := by
    rw [Bool.or_eq_true, decide_eq_true_iff, bne_iff_ne, Nat.dvd_iff_mod_eq_zero, ← not_le, imp_iff_not_or]
  simp only [noDivisorBelow, Bool.and_eq_true, decide_eq_true_iff, List.all_eq_true, List.mem_range, hd]
  exact and_congr_right fun _ => forall_congr' fun _ => forall_comm

theorem noDivisorBelow_self_iff_prime {n : Nat} : noDivisorBelow n n = true ↔ n.Prime :=
  noDivisorBelow_iff.trans Nat.prime_def_lt'.symm

/-- Below 18 ^ 2 a number that is not prime has a divisor below 18. -/
theorem noDivisorBelow_eighteen_iff_prime {n : Nat} (hn : n < 18 ^ 2) : noDivisorBelow (min n 18) n = true ↔ n.Prime := by
  rw [noDivisorBelow_iff]
  constructor
  · rintro ⟨h2, hdiv⟩
    refine Nat.prime_def_le_sqrt.2 ⟨h2, fun d hd hsqrt => hdiv d hd (lt_min ?_ ?_)⟩
    · exact hsqrt.trans_lt (Nat.sqrt_lt_self h2)
    · exact hsqrt.trans_lt (Nat.sqrt_lt'.2 hn)
  · intro hprime
    obtain ⟨h2, hdiv⟩ := Nat.prime_def_lt'.1 hprime
    exact ⟨h2, fun d hd hlt => hdiv d hd (hlt.trans_le (min_le_left n 18))⟩

/-- The first 64 primes, one for each constant (R145). -/
def firstPrimes : List Nat :=
  [2, 3, 5, 7, 11, 13, 17, 19, 23, 29, 31, 37, 41, 43, 47, 53] ++
  [59, 61, 67, 71, 73, 79, 83, 89, 97, 101, 103, 107, 109, 113, 127, 131] ++
  [137, 139, 149, 151, 157, 163, 167, 173, 179, 181, 191, 193, 197, 199, 211, 223] ++
  [227, 229, 233, 239, 241, 251, 257, 263, 269, 271, 277, 281, 283, 293, 307, 311]

/-- The search for primes below 312 needs no divisor above 17. -/
theorem filter_noDivisorBelow_self : (List.range 312).filter (fun n => noDivisorBelow n n) = firstPrimes := by
  calc (List.range 312).filter (fun n => noDivisorBelow n n)
      = (List.range 312).filter (fun n => noDivisorBelow (min n 18) n) := List.filter_congr fun n hn => by
        have hlt : n < 312 := List.mem_range.1 hn
        rw [Bool.eq_iff_iff, noDivisorBelow_self_iff_prime, noDivisorBelow_eighteen_iff_prime (by omega)]
    _ = firstPrimes := by decide

/-- Each constant is the fractional part, cut to 32 bits, of a cube root with integer part `q` (R145). -/
theorem sha256K_isCubeRoot : ∀ s, s < 64 → ∃ q, q < 8 ∧
    (q * 2 ^ 32 + (sha256K s).toNat) ^ 3 ≤ firstPrimes.getD s 0 * 2 ^ 96 ∧
    firstPrimes.getD s 0 * 2 ^ 96 < (q * 2 ^ 32 + (sha256K s).toNat + 1) ^ 3 := by decide

/-- Settles O35: the 64 primes found by trial division, and a cube root for each. -/
theorem sha256ConstantsAreCubeRoots : Obligations.Sha256ConstantsAreCubeRoots := by
  unfold Obligations.Sha256ConstantsAreCubeRoots
  intro primes
  have hprimes : primes = firstPrimes := filter_noDivisorBelow_self
  rw [hprimes]
  exact ⟨rfl, sha256K_isCubeRoot⟩

end Sys2Proof.Machine
end

section
/-! PROOFS. The statements about RIPEMD-160's compression (45_ripemd160_compress.md): the two lanes' circular register files
(R166) and the combine (R167) behind the whole instruction (R160, R161, R168), the index tables (R164) and the rotation
tables (R165). -/

namespace Sys2Proof.Machine

open Sys2Proof.Reference

/-! ## One lane's register file -/

/-- The five words the window shows of a register file before step `s`, in role order (R166). -/
def windowFive (reg : Nat → Word) (s : Nat) : Five :=
  ⟨reg (windowPlace 5 s 0), reg (windowPlace 5 s 1), reg (windowPlace 5 s 2), reg (windowPlace 5 s 3),
    reg (windowPlace 5 s 4)⟩

theorem windowFive_regFile (w : Words) : windowFive (regFile w) 0 = fiveOf w := rfl

/-- After whole turns register `i` plays role `i` again (R166). -/
theorem windowFive_of_dvd (reg : Nat → Word) {s : Nat} (hs : 5 ∣ s) :
    windowFive reg s = ⟨reg 0, reg 1, reg 2, reg 3, reg 4⟩ := by
  have hback {k : Nat} (hk : k < 5) : windowPlace 5 s k = k := windowPlace_of_dvd hs hk
  rw [windowFive, hback (k := 0) (by decide), hback (k := 1) (by decide), hback (k := 2) (by decide),
    hback (k := 3) (by decide), hback (k := 4) (by decide)]

/-- The sum a lane's step computes, with the lane's own function, message word, constant and amount (R160). -/
def laneSum (f : Nat) (m k : Word) (rot : Nat) (r : Five) : Word := rotl (r.a + rmdF f r.b r.c r.d + m + k) rot + r.e

/-- A step of the register file writes the step's sum over `a` and the rotated `c` over `c`, and nothing else. -/
theorem rmdRing_eq_putReg (f : Nat) (m k : Word) (rot : Nat) (reg : Nat → Word) (s : Nat) :
    rmdRing f m k rot reg s =
      putReg (putReg reg (windowPlace 5 s 0) (laneSum f m k rot (windowFive reg s))) (windowPlace 5 s 2)
        (rotl (windowFive reg s).c 10) := by
  simp only [rmdRing, laneSum, windowFive, windowPlace_role_zero]
  rfl

/-- The data movement of R166 is the turn of the window. -/
theorem windowFive_rmdRing (f : Nat) (m k : Word) (rot : Nat) (reg : Nat → Word) (s : Nat) :
    windowFive (rmdRing f m k rot reg s) (s + 1) =
      rmdMove (windowFive reg s) (laneSum f m k rot (windowFive reg s)) := by
  have hturn := windowPlace_turn (n := 5) (by omega) s
  have hkeep {j : Nat} (h0 : j ≠ 0) (h2 : j ≠ 2) (h5 : j < 5) :
      rmdRing f m k rot reg s (windowPlace 5 s j) = reg (windowPlace 5 s j) := by
    rw [rmdRing_eq_putReg, putReg_ne _ _ (windowPlace_ne h5 (by omega) h2),
      putReg_ne _ _ (windowPlace_ne h5 (by omega) h0)]
  have hsum : rmdRing f m k rot reg s (windowPlace 5 s 0) = laneSum f m k rot (windowFive reg s) := by
    rw [rmdRing_eq_putReg, putReg_ne _ _ (windowPlace_ne (by omega) (by omega) (by omega)), putReg_same]
  have hrot : rmdRing f m k rot reg s (windowPlace 5 s 2) = rotl (windowFive reg s).c 10 := by
    rw [rmdRing_eq_putReg, putReg_same]
  rw [windowFive, windowPlace_turn_last, hturn 0, hturn 1, hturn 2, hturn 3, hsum, hrot,
    hkeep (j := 4) (by decide) (by decide) (by decide), hkeep (j := 1) (by decide) (by decide) (by decide),
    hkeep (j := 3) (by decide) (by decide) (by decide)]
  rfl

/-! ## `RMD160.COMPRESS` -/

/-- Before step `s` a lane is what the window shows of the lane's register file, and the message words are `x` (R166). -/
structure LaneWindowed (lane : Rmd160Work → Five) (x : Sixteen) (k : Rmd160Work) (reg : Nat → Word) (s : Nat) : Prop where
  message : k.x = x
  registers : lane k = windowFive reg s

theorem rmdStep_keeps_left_windowed {x : Sixteen} {k : Rmd160Work} {reg : Nat → Word} {s : Nat}
    (h : LaneWindowed Rmd160Work.left x k reg s) :
    LaneWindowed Rmd160Work.left x (rmdStep k s) (rmdRingLeft x reg s) (s + 1) where
  message := h.message
  registers := by rw [rmdRingLeft, windowFive_rmdRing, ← h.registers, ← h.message]; rfl

theorem rmdStep_keeps_right_windowed {x : Sixteen} {k : Rmd160Work} {reg : Nat → Word} {s : Nat}
    (h : LaneWindowed Rmd160Work.right x k reg s) :
    LaneWindowed Rmd160Work.right x (rmdStep k s) (rmdRingRight x reg s) (s + 1) where
  message := h.message
  registers := by rw [rmdRingRight, windowFive_rmdRing, ← h.registers, ← h.message]; rfl

theorem rmdSteps_left_windowed (w : Words) (x : Sixteen) (n : Nat) :
    LaneWindowed Rmd160Work.left x (rmdSteps n (rmdLoad w x)) (ringSteps (rmdRingLeft x) n (regFile w)) n :=
  ringSteps_keeps (rel := LaneWindowed Rmd160Work.left x) ⟨rfl, (windowFive_regFile w).symm⟩ n
    fun _ _ _ _ h => rmdStep_keeps_left_windowed h

theorem rmdSteps_right_windowed (w : Words) (x : Sixteen) (n : Nat) :
    LaneWindowed Rmd160Work.right x (rmdSteps n (rmdLoad w x)) (ringSteps (rmdRingRight x) n (regFile w)) n :=
  ringSteps_keeps (rel := LaneWindowed Rmd160Work.right x) ⟨rfl, (windowFive_regFile w).symm⟩ n
    fun _ _ _ _ h => rmdStep_keeps_right_windowed h

/-- After all 80 steps both windows are back at the start, so the combine of R167 reads the register files in role order. -/
theorem rmdBlock_eq_ringSteps (w : Words) (x : Sixteen) :
    rmdBlock w x =
      let left := ringSteps (rmdRingLeft x) 80 (regFile w)
      let right := ringSteps (rmdRingRight x) 80 (regFile w)
      let new (i : Nat) : Word := regFile w ((i + 1) % 5) + left ((i + 2) % 5) + right ((i + 3) % 5)
      { w with w0 := new 0, w1 := new 1, w2 := new 2, w3 := new 3, w4 := new 4 } := by
  have hback (reg : Nat → Word) : windowFive reg 80 = ⟨reg 0, reg 1, reg 2, reg 3, reg 4⟩ :=
    windowFive_of_dvd reg (by decide)
  have hleft := (rmdSteps_left_windowed w x 80).registers
  have hright := (rmdSteps_right_windowed w x 80).registers
  rw [hback] at hleft hright
  rw [rmdBlock, rmdCombine, rmdCopy, hleft, hright]
  rfl

/-- The core writes the words and its own working registers, and leaves every other field (R160, R168). -/
theorem rmdCore_eq (c : Config) (s : State) : rmdCore c s =
    { s with words := rmdBlock s.words (loadBlock c .le s), work := { s.work with rmd160 := Rmd160Work.zero } } := by
  rw [rmdCore, State.setWork, State.setWords]

/-- Settles O28: the core folds R160's steps, and in each lane the register file read through the window simulates them. -/
theorem rmd160CompressIsRotatingWindow : Obligations.Rmd160CompressIsRotatingWindow := by
  intro s
  have hexec : exec .rmd160Compress s = .next (rmdCore Config.standard s) := exec_compress .rmd160 s
  rw [hexec, rmdCore_eq, rmdBlock_eq_ringSteps, loadBlock, standard_hdr]

/-! ## The index tables -/

/-- `rho` takes every value of 0..15 on 0..15 (R164). -/
theorem rmdRho_surjOn : Set.SurjOn rmdRho (Set.Iio 16) (Set.Iio 16) :=
  show ∀ v, v < 16 → ∃ u, u < 16 ∧ rmdRho u = v by decide

/-- `pi` takes every value of 0..15 on 0..15 (R164). -/
theorem rmdRR_zero_surjOn : Set.SurjOn (rmdRR 0) (Set.Iio 16) (Set.Iio 16) :=
  show ∀ v, v < 16 → ∃ u, u < 16 ∧ rmdRR 0 u = v by decide

/-- Each row of the left lane is a power of `rho`. -/
theorem rmdRL_surjOn (j : Nat) : Set.SurjOn (rmdRL j) (Set.Iio 16) (Set.Iio 16) := by
  induction j with
  | zero => exact Set.surjOn_id _
  | succ j ih => exact rmdRho_surjOn.comp ih

/-- Each row of the right lane is a power of `rho` after `pi`. -/
theorem rmdRR_surjOn (j : Nat) : Set.SurjOn (rmdRR j) (Set.Iio 16) (Set.Iio 16) := by
  induction j with
  | zero => exact rmdRR_zero_surjOn
  | succ j ih => exact rmdRho_surjOn.comp ih

/-- Settles O31: the printed rows evaluated; each row is onto 0..15 because `rho`, the identity and `pi` are. -/
theorem rmd160IndexTables : Obligations.Rmd160IndexTables :=
  ⟨by decide, by decide, fun j _ _ hv => ⟨rmdRL_surjOn j hv, rmdRR_surjOn j hv⟩, fun _ _ _ => ⟨rfl, rfl⟩⟩

/-! ## The rotation tables -/

/-- `SW`: the rotation amount of each message word in each round (R165). -/
def rmdSWTable : List (List Nat) :=
  [[11, 14, 15, 12, 5, 8, 7, 9, 11, 13, 14, 15, 6, 7, 9, 8], [12, 13, 11, 15, 6, 9, 9, 7, 12, 15, 11, 13, 7, 8, 7, 7],
   [13, 15, 14, 11, 7, 7, 6, 8, 13, 14, 13, 12, 5, 5, 6, 9], [14, 11, 12, 14, 8, 6, 5, 5, 15, 12, 15, 14, 9, 9, 8, 6],
   [15, 12, 13, 13, 9, 5, 8, 6, 14, 11, 12, 11, 8, 6, 5, 5]]

/-- The left lane's amount is that of the message word the lane reads. -/
theorem rmdSL_eq_rmdSWTable : ∀ j, j < 5 → ∀ u, u < 16 → rmdSL j u = (rmdSWTable.getD j []).getD (rmdRL j u) 0 := by
  decide

/-- The right lane's amount is that of the message word the lane reads. -/
theorem rmdSR_eq_rmdSWTable : ∀ j, j < 5 → ∀ u, u < 16 → rmdSR j u = (rmdSWTable.getD j []).getD (rmdRR j u) 0 := by
  decide

/-- Settles O32: 80 amounts in each lane, evaluated. -/
theorem rmd160RotationTables : Obligations.Rmd160RotationTables :=
  fun j hj u hu => ⟨rmdSL_eq_rmdSWTable j hj u hu, rmdSR_eq_rmdSWTable j hj u hu⟩

end Sys2Proof.Machine
end

section
/-! PROOFS. The statements about exceptions (60_exceptions.md): the refusals of the contract in their order (R192 to R196),
and the idle step of a core with nothing presented (R204). -/

namespace Sys2Proof.Machine

/-! ## The refusals -/

/-- Settles O40: with its phase check passed, `UPDATE` is decided by the ceiling check alone. -/
theorem byteCeilingIsExact : Obligations.ByteCeilingIsExact := by
  intro alg data s hphase
  refine ⟨fun hover => ?_, fun hwithin => ⟨_, exec_update_completes hphase hwithin⟩⟩
  rw [exec_update]
  exact update_over hphase hover

/-- Settles O38: the phase check comes first and finds no computation. -/
theorem refusedWithoutComputation : Obligations.RefusedWithoutComputation := by
  intro alg data s hphase
  rw [exec_update, exec_final]
  exact ⟨update_idle hphase, finish_idle hphase⟩

/-- Settles O39: the phase check comes first and finds another algorithm's computation. -/
theorem refusedForOtherAlgorithm : Obligations.RefusedForOtherAlgorithm := by
  intro alg other data s hphase hother
  rw [exec_update, exec_final]
  exact ⟨update_other hphase hother, finish_other hphase hother⟩

/-! ## The idle core -/

/-- Settles O10: the fetch of a core with nothing presented is the idle one. -/
theorem idleStepKeepsState : Obligations.IdleStepKeepsState :=
  fun _ hcreq hpending => step_idle hcreq hpending

end Sys2Proof.Machine
end

section
/-! PROOFS. The statements about reset and hazards (70_reset_and_hazards.md): residue of the buffer is never read (R213), the
payload of another length than `len` (R217), and the reset signal between commands (R210, R211). -/

namespace Sys2Proof.Machine

open Sys2Proof.Reference
open Sys2Proof.Safety

/-! ## What two states that differ in residue only have in common -/

theorem sameLive_index {s u : State} (h : SameLive s u) : s.index = u.index := index_congr h.countLo

theorem sameLive_byteCount {s u : State} (h : SameLive s u) : s.byteCount = u.byteCount := by
  rw [State.byteCount, State.byteCount, h.countHi, h.countLo]

/-- The bytes of the computation in progress are the same. -/
theorem sameLive_buffered {s u : State} (h : SameLive s u) :
    buffered Config.standard s = buffered Config.standard u := by
  rw [buffered, buffered, ← sameLive_index h]
  exact readBytes_ext h.live

/-- Equal buffered bytes are equal byte by byte. -/
theorem read_eq_of_buffered_eq {c : Config} {s u : State} (hindex : s.index = u.index)
    (h : buffered c s = buffered c u) {i : Nat} (hi : i < s.index) :
    s.mem.read (c.hdr + i) = u.mem.read (c.hdr + i) := by
  rw [buffered, buffered, ← hindex] at h
  rw [← readBytes_getD s.mem c.hdr s.index i hi, h, readBytes_getD _ _ _ _ hi]

/-- With a zero counter no byte of the buffer belongs to a computation (R22 (b), R61). -/
theorem not_lt_index_of_countLo_zero {s : State} (h : s.countLo = 0) (i : Nat) : ¬ i < s.index := by
  rw [index_eq, h]
  exact i.not_lt_zero

/-! ## The contract does not look at the buffer -/

theorem phaseCheck_congr (alg : Alg) {s u : State} (h : s.phase = u.phase) : phaseCheck alg s = phaseCheck alg u := by
  rw [phaseCheck, phaseCheck, h]

theorem ceilingCheck_congr (c : Config) (n : Nat) {s u : State} (h : s.byteCount = u.byteCount) :
    ceilingCheck c n s = ceilingCheck c n u := by
  rw [ceilingCheck, ceilingCheck, h]

/-- The checks alone decide between a refusal and the run, and for which reason (R192). -/
theorem contract_refuses_or_runs (checks : List (Option Refusal)) (s u : State) :
    (∃ r, contract checks s = .refused r ∧ contract checks u = .refused r) ∨
    (contract checks s = .next s ∧ contract checks u = .next u) := by
  unfold contract
  cases checks.findSome? id with
  | some r => exact .inl ⟨r, rfl, rfl⟩
  | none => exact .inr ⟨rfl, rfl⟩

theorem sameLive_update_refuses_or_absorbs {s u : State} (h : SameLive s u) (c : Config) (alg : Alg) (d : List Byte) :
    (∃ r, update c alg d s = .refused r ∧ update c alg d u = .refused r) ∨
    (update c alg d s = .next (absorb c alg d s) ∧ update c alg d u = .next (absorb c alg d u)) := by
  rw [update, update, phaseCheck_congr alg h.phase, ceilingCheck_congr c d.length (sameLive_byteCount h)]
  exact contract_refuses_or_runs _ _ _

theorem sameLive_finish_refuses_or_finalizes {s u : State} (h : SameLive s u) (c : Config) (alg : Alg) :
    (∃ r, finish c alg s = .refused r ∧ finish c alg u = .refused r) ∨
    (finish c alg s = .next (finalize c alg s) ∧ finish c alg u = .next (finalize c alg u)) := by
  rw [finish, finish, phaseCheck_congr alg h.phase]
  exact contract_refuses_or_runs _ _ _

/-! ## What each command leaves of the residue -/

/-- `INIT` replaces the context, and no byte of the buffer belongs to the new computation (R65 to R68). -/
theorem sameLive_beginWith {s u : State} (h : SameLive s u) (alg : Alg) (iv : Words) :
    SameLive (beginWith alg iv s) (beginWith alg iv u) where
  words := by rw [beginWith_words, beginWith_words]
  countLo := by rw [beginWith_countLo, beginWith_countLo]
  countHi := by rw [beginWith_countHi, beginWith_countHi]
  phase := by rw [beginWith_phase, beginWith_phase]
  work := h.work
  creq := h.creq
  live i hi := absurd hi (not_lt_index_of_countLo_zero (beginWith_countLo alg iv s) i)

/-- `Absorb` reads the buffered bytes and the payload only (R63). -/
theorem sameLive_absorb {s u : State} (h : SameLive s u) (hs : s.mem.wf) (hu : u.mem.wf) (alg : Alg) {d : List Byte}
    (hlen : d.length ≤ 65535) :
    SameLive (absorb Config.standard alg d s) (absorb Config.standard alg d u) where
  words := by rw [absorb_words _ _ _ _ hlen hs, absorb_words _ _ _ _ hlen hu, h.words, sameLive_buffered h]
  countLo := by rw [(absorb_count _ _ _ _).1, (absorb_count _ _ _ _).1, h.countLo]
  countHi := by rw [(absorb_count _ _ _ _).2, (absorb_count _ _ _ _).2, h.countHi, h.countLo]
  phase := by rw [absorb_phase, absorb_phase, h.phase]
  work := by rw [absorb_work _ _ _ _ hlen, absorb_work _ _ _ _ hlen, sameLive_index h, h.work]
  creq := by rw [absorb_creq, absorb_creq, h.creq]
  live i hi := by
    refine read_eq_of_buffered_eq (c := Config.standard) ?_ ?_ hi
    · rw [absorb_index, absorb_index, sameLive_index h]
    · rw [absorb_buffered _ _ _ _ hlen hs, absorb_buffered _ _ _ _ hlen hu, sameLive_buffered h]

/-- `Finalize` leaves a zero context, so no byte of the buffer belongs to a computation (R87). -/
theorem sameLive_finalize {s u : State} (h : SameLive s u) (alg : Alg) :
    SameLive (finalize Config.standard alg s) (finalize Config.standard alg u) where
  words := by rw [finalize_words, finalize_words]
  countLo := by rw [finalize_countLo, finalize_countLo]
  countHi := by rw [finalize_countHi, finalize_countHi]
  phase := by rw [finalize_phase, finalize_phase]
  work := by rw [finalize_work, finalize_work, h.work]
  creq := by rw [finalize_creq, finalize_creq, h.creq]
  live i hi := absurd hi (not_lt_index_of_countLo_zero (finalize_countLo Config.standard alg s) i)

/-- Every byte `Finalize` leaves comes from the words, the buffered bytes and the byte count (R92, R93). -/
theorem sameLive_finalize_read {s u : State} (h : SameLive s u) (hs : s.mem.wf) (hu : u.mem.wf) (alg : Alg) {p : Nat}
    (hp : p < 68) : (finalize Config.standard alg s).mem.read p =
      (finalize Config.standard alg u).mem.read p := by
  rw [finalize_read _ alg s standard_standardOrder hs p hp,
    finalize_read _ alg u standard_standardOrder hu p hp, h.words, sameLive_buffered h, sameLive_byteCount h]

theorem init_ne_final (alg a : Alg) : Instr.init alg ≠ .final a := by cases alg <;> cases a <;> nofun

theorem update_ne_final (alg a : Alg) (d : List Byte) : Instr.update alg d ≠ .final a := by
  cases alg <;> cases a <;> nofun

/-- Settles O50: the checks read phase and counter, and each host command reads only what the two states agree on. -/
theorem residueDoesNotFlow : Obligations.ResidueDoesNotFlow := by
  intro i s u hs hu hwf hhost h
  rcases instr_cases i with ⟨alg, rfl⟩ | ⟨alg, d, rfl⟩ | ⟨alg, rfl⟩ | ⟨alg, rfl⟩
  · exact .inr ⟨_, _, exec_init alg s, exec_init alg u, sameLive_beginWith h alg _,
      fun ⟨a, ha⟩ => absurd ha (init_ne_final alg a)⟩
  · rw [exec_update, exec_update]
    have hlen := (update_wellFormed_iff alg d).1 hwf
    refine (sameLive_update_refuses_or_absorbs h Config.standard alg d).imp_right fun ⟨es, eu⟩ => ?_
    exact ⟨_, _, es, eu, sameLive_absorb h hs hu alg hlen, fun ⟨a, ha⟩ => absurd ha (update_ne_final alg a d)⟩
  · rw [exec_final, exec_final]
    refine (sameLive_finish_refuses_or_finalizes h Config.standard alg).imp_right fun ⟨es, eu⟩ => ?_
    exact ⟨_, _, es, eu, sameLive_finalize h alg, fun _ p => sameLive_finalize_read h hs hu alg⟩
  · exact absurd rfl (hhost alg)

/-! ## Ill-formed input -/

/-- Settles O8: the word selects a row, so it is not reserved, and the decoder asks for the payload's length next. -/
theorem wrongPayloadLengthRejected : Obligations.WrongPayloadLengthRejected := by
  intro s w payload rest r hcreq hpending hr hsel hlen
  refine step_payload hcreq hpending ?_
  rw [decodeCommand_of_selects hr hsel, if_neg (by rwa [lenField_toNat])]

/-! ## The reset signal -/

theorem resetCore_eq_update (s : State) :
    resetCore s = { State.reset with pending := s.pending, received := s.received } := rfl

/-- Settles O12: the step takes the reset from the list, and `resetCore` keeps the rest of the list and the bytes read. -/
theorem resetSignalRestores : Obligations.ResetSignalRestores := by
  intro s rest hcreq hpending
  rw [step_reset hcreq hpending, resetCore_eq_update, setPending_pending, setPending_received]

end Sys2Proof.Machine
end
